-- ==== Sys2Proof/Word.lean ====
section
/-! DEFINITION. The byte, the 32-bit word, the narrow header fields, and the 16-byte register
type of `10_state.md` rules R10 and R13. All fields of this hardware are unsigned (R4). -/

namespace Sys2Proof

/-- A byte of a stream, of a buffer or of a header: 8 bits (`20_memory.md` R40). -/
abbrev Byte := BitVec 8

/-- The 32-bit word of `targetAddress`, `byteCount` and `argument` (`00_scope.md` R1, `WORD_W`). -/
abbrev Word := BitVec 32

/-- The 12-bit `flags` field (`00_scope.md` R1, `FLAGS_W`). -/
abbrev Flags := BitVec 12

/-- The 4-bit `bcode` field (`00_scope.md` R1, `BCODE_W`). -/
abbrev Bcode := BitVec 4

/-- A register of 16 bytes in stream order: byte `k` is at offset `k` of the header (R3, R10). -/
structure Bytes16 where
  b0  : Byte
  b1  : Byte
  b2  : Byte
  b3  : Byte
  b4  : Byte
  b5  : Byte
  b6  : Byte
  b7  : Byte
  b8  : Byte
  b9  : Byte
  b10 : Byte
  b11 : Byte
  b12 : Byte
  b13 : Byte
  b14 : Byte
  b15 : Byte
deriving DecidableEq, Repr

/-- Sixteen zero bytes. -/
def Bytes16.zero : Bytes16 := ⟨0, 0, 0, 0, 0, 0, 0, 0, 0, 0, 0, 0, 0, 0, 0, 0⟩

end Sys2Proof
end

