-- ==== Sys2Proof/Config.lean ====
section
/-! DEFINITION. The fixed parameters of `00_scope.md` rule R1 and the one free value of the
hardware (the unwritten buffer bytes of `20_memory.md` rule R58). The parameters that R1 marks
OPEN (`MAX_CHUNKS`, `MAX_DATA_BYTES`, `POS_W`) are plain fields of State that no step writes, so that every
statement ranges over them. -/

namespace Sys2Proof

/-- `HEADER_SIZE`: every header, read or written, has 16 bytes (R1). -/
def Config.headerSize : Nat := 16

/-- `FILL_WORD`: the granule of Fill unrolling in bytes (R1). -/
def Config.fillWord : Nat := 4

/-- The default of `FILL_THRESHOLD`, its value after reset (R2, R28). -/
def Config.fillThresholdDefault : Word := 256

/-- `LEN_W`: a chunk's length is a 32-bit number, so it stays below this bound (R1, R149). -/
def Config.lengthBound : Nat := 2 ^ 32

/-- The value of a buffer byte that `BufGrow` has added and nothing has written: a FREE VALUE
(R58, R152, `93_implementation_defined.md` U1; log entry 3). It is applied to a counter of State,
so that no two draws are known to be equal or different. -/
opaque Config.freeByte : Nat → Byte

end Sys2Proof
end

