-- ==== Sys2Proof/Syntax.lean ====
section
/-! DEFINITION. The syntax: one constructor of `Instr` per row of `spec/opcode_table.json`. The ten
input classes carry the fields of their header, the emitted forms what the serializer's
multiplexer selects from beside the machine's own registers, `EOS` nothing. -/

namespace Sys2Proof

/-- The logical header: the fields of `30_encoding.md` rule R60 without the checksum, which is a
function of the others in every valid header (`40_header_codec.md` R91). -/
structure Header where
  bcode : Bcode
  flags : Flags
  sig   : Byte
  addr  : Word
  count : Word
  arg   : Word
deriving DecidableEq, Repr

/-- The image-settings register group `IS` (`10_state.md` R29). -/
structure ImageSettings where
  sig   : Byte
  bcode : Bcode
  entry : Word
deriving DecidableEq, Repr

/-- One record of the chunk store (`10_state.md` R16). The link `c.next` is the order of the list
that holds the record (R18). `data` is absent for a Fill chunk (R142). -/
structure Chunk where
  addr   : Word
  arg    : Word
  flags  : Flags
  length : Word
  data   : Option (List Byte)
deriving DecidableEq, Repr

/-- The "instructions": the ten input classes of `30_encoding.md` rule R67 in the order of the
table, the three emitted forms of rule R77, and the pseudo-block `EOS` of rule R68. -/
inductive Instr where
  /-- `FIRST`, `41_stream_parser.md` R114. -/
  | first (h : Header)
  /-- `FINAL`, R115. -/
  | final (h : Header)
  /-- `IGNORE`, R116. -/
  | ignore (h : Header)
  /-- `DATA`, R117. -/
  | data (h : Header)
  /-- `FILL.S`, R118. -/
  | fillS (h : Header)
  /-- `FILL.L`, R119. -/
  | fillL (h : Header)
  /-- `XDATA.INIT`, R120 with R122. -/
  | xdataInit (h : Header)
  /-- `XFILL.INIT`, R121 with R122. -/
  | xfillInit (h : Header)
  /-- `XDATA`, R120. -/
  | xdata (h : Header)
  /-- `XFILL`, R121. -/
  | xfill (h : Header)
  /-- `EMIT.SIZING`, `43_block_serializer.md` R173: every field comes from `IS` and the store. -/
  | emitSizing
  /-- `EMIT.CHUNK`, R175 and R176: the chunk that the flush has reached. -/
  | emitChunk (c : Chunk)
  /-- `EMIT.TERM`, R179: every field comes from `IS`. -/
  | emitTerm
  /-- `EOS`, `41_stream_parser.md` R111. -/
  | eos
deriving DecidableEq, Repr

end Sys2Proof
end

