-- ==== Sys2Proof/WellFormed.lean ====
section
/-! DEFINITION. When a term of `Instr` is an instruction of the hardware: its flags (and, for a
Fill-only block, its count) satisfy the condition of its class in `30_encoding.md` rules R65 and
R66; an emitted chunk satisfies the store's invariant. The condition of a Fill-only block depends
on `FILL_THRESHOLD`, which is therefore an argument. -/

namespace Sys2Proof

/-- The canonical form of a chunk record (`42_chunk_store.md` R142, `10_state.md` R19 (a),
`43_block_serializer.md` R181): no `IGNORE`, `FIRST` or `FINAL` bit; a buffer exactly when `FILL`
is clear, of exactly `length` bytes. -/
def Chunk.wf (c : Chunk) : Bool :=
  (c.flags &&& 0xD00 == 0) &&
  (match c.data with
   | none   => c.flags &&& 0x010 != 0
   | some d => (c.flags &&& 0x010 == 0) && (d.length == c.length.toNat))

/-- The condition of the instruction's class, with the threshold in force (R65, R66). -/
def wellFormed (threshold : Word) : Instr → Bool
  | .first h     => h.flags &&& 0x400 != 0
  | .final h     => (h.flags &&& 0x400 == 0) && (h.flags &&& 0x800 != 0)
  | .ignore h    => (h.flags &&& 0xC00 == 0) && (h.flags &&& 0x100 != 0)
  | .data h      => h.flags == 0x000
  | .fillS h     => (h.flags == 0x010) && decide (h.count.toNat ≤ threshold.toNat)
  | .fillL h     => (h.flags == 0x010) && decide (threshold.toNat < h.count.toNat)
  | .xdataInit h => (h.flags &&& 0xD00 == 0) && (h.flags &&& 0x010 == 0) && (h.flags &&& 0x080 != 0)
  | .xfillInit h => (h.flags &&& 0xD00 == 0) && (h.flags &&& 0x010 != 0) && (h.flags &&& 0x080 != 0)
  | .xdata h     => (h.flags &&& 0xD00 == 0) && (h.flags &&& 0x010 == 0) && (h.flags &&& 0x080 == 0) &&
                    (h.flags &&& 0x26F != 0)
  | .xfill h     => (h.flags &&& 0xD00 == 0) && (h.flags &&& 0x010 != 0) && (h.flags &&& 0x080 == 0) &&
                    (h.flags &&& 0x26F != 0)
  | .emitSizing  => true
  | .emitChunk c => c.wf
  | .emitTerm    => true
  | .eos         => true

end Sys2Proof
end

