-- ==== Sys2Proof/Decode.lean ====
section
/-! DEFINITION. Field assembly and checksum (`30_encoding.md` R60 to R62, `40_header_codec.md` R90
to R95), classification (R65 to R67), the decoder of the input stream, the encoder of an input
block, and the encoder and decoder of the emitted forms (R77, `43_block_serializer.md` R172). -/

namespace Sys2Proof

/-! ### Bytes -/

/-- The bytes of a 16-byte register in stream order (R3). -/
def Bytes16.toList (B : Bytes16) : List Byte :=
  [B.b0, B.b1, B.b2, B.b3, B.b4, B.b5, B.b6, B.b7,
   B.b8, B.b9, B.b10, B.b11, B.b12, B.b13, B.b14, B.b15]

/-- The first sixteen bytes of a stream, where there are sixteen. -/
def Bytes16.ofPrefix : List Byte → Option Bytes16
  | b0 :: b1 :: b2 :: b3 :: b4 :: b5 :: b6 :: b7 :: b8 :: b9 :: b10 :: b11 :: b12 :: b13 :: b14 :: b15 :: _ =>
      some ⟨b0, b1, b2, b3, b4, b5, b6, b7, b8, b9, b10, b11, b12, b13, b14, b15⟩
  | _ => none

/-- `LE32` of R4: a word from four bytes in stream order, the first the least significant (R45). -/
def le32 (b0 b1 b2 b3 : Byte) : Word := b3 ++ b2 ++ b1 ++ b0

/-- Byte `k` of `LE32bytes(v)` of R4: bits `8k+7 .. 8k`. -/
def wordByte (v : Word) (k : Nat) : Byte := v.extractLsb' (8 * k) 8

/-- `LE32bytes` of R4: the four bytes of a word in stream order. -/
def le32bytes (v : Word) : List Byte := [wordByte v 0, wordByte v 1, wordByte v 2, wordByte v 3]

/-! ### The header register's field aliases (`10_state.md` R11) -/

/-- `H.hw0 = {H[1], H[0]}`. -/
def Bytes16.hw0 (B : Bytes16) : BitVec 16 := B.b1 ++ B.b0

/-- `H.w0`, the word that the class table's masks and matches apply to (R67). -/
def Bytes16.w0 (B : Bytes16) : Word := le32 B.b0 B.b1 B.b2 B.b3

/-- `H.chk`, the stored `headerChecksum`. -/
def Bytes16.chk (B : Bytes16) : Byte := B.b2

/-- `unpack` of R62: the fields other than the checksum. -/
def unpack (B : Bytes16) : Header where
  bcode := B.hw0.extractLsb' 0 4
  flags := B.hw0.extractLsb' 4 12
  sig   := B.b3
  addr  := le32 B.b4 B.b5 B.b6 B.b7
  count := le32 B.b8 B.b9 B.b10 B.b11
  arg   := le32 B.b12 B.b13 B.b14 B.b15

/-- `pack` of R62, with `hw0 = (flags << 4) | bcode`. -/
def pack (h : Header) (chk : Byte) : Bytes16 :=
  let hw0 : BitVec 16 := h.flags ++ h.bcode
  { b0  := hw0.extractLsb' 0 8
    b1  := hw0.extractLsb' 8 8
    b2  := chk
    b3  := h.sig
    b4  := wordByte h.addr 0
    b5  := wordByte h.addr 1
    b6  := wordByte h.addr 2
    b7  := wordByte h.addr 3
    b8  := wordByte h.count 0
    b9  := wordByte h.count 1
    b10 := wordByte h.count 2
    b11 := wordByte h.count 3
    b12 := wordByte h.arg 0
    b13 := wordByte h.arg 1
    b14 := wordByte h.arg 2
    b15 := wordByte h.arg 3 }

/-! ### The checksum (R90, R91, R95) -/

/-- `XOR16` of R90. -/
def xor16 (B : Bytes16) : Byte :=
  B.b0 ^^^ B.b1 ^^^ B.b2 ^^^ B.b3 ^^^ B.b4 ^^^ B.b5 ^^^ B.b6 ^^^ B.b7 ^^^
  B.b8 ^^^ B.b9 ^^^ B.b10 ^^^ B.b11 ^^^ B.b12 ^^^ B.b13 ^^^ B.b14 ^^^ B.b15

/-- The generated checksum: `XOR16` with the checksum byte zeroed (R95). -/
def genChecksum (B : Bytes16) : Byte := xor16 { B with b2 := 0 }

/-- A 16-byte value with its generated checksum in byte 2 (R95). It changes nothing in a valid
header (R96). -/
def sealHeader (B : Bytes16) : Bytes16 := { B with b2 := genChecksum B }

/-- The 16 bytes that `ENCODE` writes for the selected fields (R95). -/
def encodeHeader (h : Header) : Bytes16 := sealHeader (pack h 0)

/-! ### Classification (R65 to R67) -/

/-- The priority decode of R65 with the subdivision of R66; the Fill-only class is split by the
unsigned strict comparison of R2. -/
def classify (threshold : Word) (h : Header) : Instr :=
  if h.flags &&& 0x400 ≠ 0 then .first h
  else if h.flags &&& 0x800 ≠ 0 then .final h
  else if h.flags &&& 0x100 ≠ 0 then .ignore h
  else if h.flags = 0x000 then .data h
  else if h.flags = 0x010 then
    if threshold.toNat < h.count.toNat then .fillL h else .fillS h
  else if h.flags &&& 0x010 = 0 then
    if h.flags &&& 0x080 ≠ 0 then .xdataInit h else .xdata h
  else
    if h.flags &&& 0x080 ≠ 0 then .xfillInit h else .xfill h

/-- The mnemonic of an instruction, as `spec/opcode_table.json` spells it. -/
def Instr.mnemonic : Instr → String
  | .first _     => "FIRST"
  | .final _     => "FINAL"
  | .ignore _    => "IGNORE"
  | .data _      => "DATA"
  | .fillS _     => "FILL.S"
  | .fillL _     => "FILL.L"
  | .xdataInit _ => "XDATA.INIT"
  | .xfillInit _ => "XFILL.INIT"
  | .xdata _     => "XDATA"
  | .xfill _     => "XFILL"
  | .emitSizing  => "EMIT.SIZING"
  | .emitChunk _ => "EMIT.CHUNK"
  | .emitTerm    => "EMIT.TERM"
  | .eos         => "EOS"

/-- The extra conditions of the class table's rows (R67). -/
inductive RowCond where
  | none
  | countAtMostThreshold
  | countAboveThreshold
  | someUnnamedBit
deriving DecidableEq, Repr

/-- A row of the class table of R67: mask and match on `w0`, and the extra condition. -/
structure ClassRow where
  mnemonic : String
  mask     : Word
  bits     : Word
  cond     : RowCond
deriving DecidableEq, Repr

/-- The class table of R67 in the order of its `prio` column. -/
def classTable : List ClassRow := [
  ⟨"FIRST",      0x00004000, 0x00004000, .none⟩,
  ⟨"FINAL",      0x0000C000, 0x00008000, .none⟩,
  ⟨"IGNORE",     0x0000D000, 0x00001000, .none⟩,
  ⟨"DATA",       0x0000FFF0, 0x00000000, .none⟩,
  ⟨"FILL.S",     0x0000FFF0, 0x00000100, .countAtMostThreshold⟩,
  ⟨"FILL.L",     0x0000FFF0, 0x00000100, .countAboveThreshold⟩,
  ⟨"XDATA.INIT", 0x0000D900, 0x00000800, .none⟩,
  ⟨"XFILL.INIT", 0x0000D900, 0x00000900, .none⟩,
  ⟨"XDATA",      0x0000D900, 0x00000000, .someUnnamedBit⟩,
  ⟨"XFILL",      0x0000D900, 0x00000100, .someUnnamedBit⟩]

/-- Whether the extra condition of a row holds of a header (R67; `w2` is `byteCount`). -/
def RowCond.holds (threshold : Word) (B : Bytes16) : RowCond → Bool
  | .none                 => true
  | .countAtMostThreshold => decide ((unpack B).count.toNat ≤ threshold.toNat)
  | .countAboveThreshold  => decide (threshold.toNat < (unpack B).count.toNat)
  | .someUnnamedBit       => B.w0 &&& 0x000026F0 != 0

/-- A row matches when `w0 & mask = match` and its extra condition holds (R67). -/
def ClassRow.matchesHeader (threshold : Word) (B : Bytes16) (r : ClassRow) : Bool :=
  (B.w0 &&& r.mask == r.bits) && r.cond.holds threshold B

/-! ### Decoding the input stream (R78) -/

/-- Why bytes hold no instruction. -/
inductive DecodeError where
  /-- Fewer than sixteen bytes, and not none: `60_exceptions.md` R191 (a). -/
  | truncatedHeader
  /-- The XOR test fails: `40_header_codec.md` R92, R93. -/
  | checksum
deriving DecidableEq, Repr

/-- The instruction at the start of the unread input: nothing left is `EOS` (R68); sixteen bytes
are tested (R93) before any field is interpreted, then unpacked and classified (R78). -/
def decode (threshold : Word) (bs : List Byte) : Except DecodeError Instr :=
  match bs with
  | [] => .ok .eos
  | _ :: _ =>
    match Bytes16.ofPrefix bs with
    | none   => .error .truncatedHeader
    | some B => if xor16 B = 0 then .ok (classify threshold (unpack B)) else .error .checksum

/-- The header of an input block; the emitted forms and `EOS` have none on the input. -/
def Instr.header? : Instr → Option Header
  | .first h     => some h
  | .final h     => some h
  | .ignore h    => some h
  | .data h      => some h
  | .fillS h     => some h
  | .fillL h     => some h
  | .xdataInit h => some h
  | .xfillInit h => some h
  | .xdata h     => some h
  | .xfill h     => some h
  | .emitSizing  => none
  | .emitChunk _ => none
  | .emitTerm    => none
  | .eos         => none

/-- The rows of the table with direction "input". -/
def Instr.isInput : Instr → Bool
  | .emitSizing  => false
  | .emitChunk _ => false
  | .emitTerm    => false
  | .first _     => true
  | .final _     => true
  | .ignore _    => true
  | .data _      => true
  | .fillS _     => true
  | .fillL _     => true
  | .xdataInit _ => true
  | .xfillInit _ => true
  | .xdata _     => true
  | .xfill _     => true
  | .eos         => true

/-- The number of payload bytes that follow the header on `IN` (R76). -/
def Instr.payloadLength : Instr → Nat
  | .ignore h    => h.count.toNat
  | .data h      => h.count.toNat
  | .xdata h     => h.count.toNat
  | .xdataInit h => h.count.toNat
  | .first _     => 0
  | .final _     => 0
  | .fillS _     => 0
  | .fillL _     => 0
  | .xfillInit _ => 0
  | .xfill _     => 0
  | .emitSizing  => 0
  | .emitChunk _ => 0
  | .emitTerm    => 0
  | .eos         => 0

/-- The header bytes of an input instruction (R62, R95); `EOS` has no bytes (R68), and an emitted
form is no input block (its bytes are `encodeEmitted`). -/
def encode (i : Instr) : List Byte :=
  match i.header? with
  | some h => (encodeHeader h).toList
  | none   => []

/-! ### The emitted forms (R77, R172) -/

/-- The multiplexer's selection for `EMIT.SIZING` (R172, R173). -/
def sizingHeader (st : ImageSettings) (total : Word) : Header :=
  { bcode := st.bcode, flags := 0x500, sig := st.sig, addr := st.entry, count := 0, arg := total }

/-- The multiplexer's selection for `EMIT.CHUNK` (R172, R175). -/
def chunkHeader (st : ImageSettings) (c : Chunk) : Header :=
  { bcode := st.bcode, flags := c.flags, sig := st.sig, addr := c.addr, count := c.length, arg := c.arg }

/-- The multiplexer's selection for `EMIT.TERM` (R172, R179). -/
def termHeader (st : ImageSettings) : Header :=
  { bcode := st.bcode, flags := 0x800, sig := st.sig, addr := st.entry, count := 0, arg := 0 }

/-- The bytes an emitted form puts on `OUT`: its header, and the buffer of a materialized chunk
(R77, R176). An input block emits nothing of its own. -/
def encodeEmitted (st : ImageSettings) (total : Word) : Instr → List Byte
  | .emitSizing  => (encodeHeader (sizingHeader st total)).toList
  | .emitChunk c => (encodeHeader (chunkHeader st c)).toList ++ c.data.getD []
  | .emitTerm    => (encodeHeader (termHeader st)).toList
  | .first _     => []
  | .final _     => []
  | .ignore _    => []
  | .data _      => []
  | .fillS _     => []
  | .fillL _     => []
  | .xdataInit _ => []
  | .xfillInit _ => []
  | .xdata _     => []
  | .xfill _     => []
  | .eos         => []

/-- Which emitted form stands at the start of a piece of `OUT`, with the rest after it: `0x500` is
`EMIT.SIZING`, `0x800` is `EMIT.TERM`, flags without `IGNORE`, `FIRST` and `FINAL` are an
`EMIT.CHUNK`, followed by its payload exactly when `FILL` is clear (R77, R181). Other flags are in
no emitted header. -/
def decodeEmitted (bs : List Byte) : Option (Instr × List Byte) :=
  match Bytes16.ofPrefix bs with
  | none => none
  | some B =>
    let h := unpack B
    let rest := bs.drop 16
    if xor16 B ≠ 0 then none
    else if h.flags = 0x500 then some (.emitSizing, rest)
    else if h.flags = 0x800 then some (.emitTerm, rest)
    else if h.flags &&& 0xD00 ≠ 0 then none
    else if h.flags &&& 0x010 ≠ 0 then
      some (.emitChunk ⟨h.addr, h.arg, h.flags, h.count, none⟩, rest)
    else
      some (.emitChunk ⟨h.addr, h.arg, h.flags, h.count, some (rest.take h.count.toNat)⟩,
        rest.drop h.count.toNat)

/-! ### The host's table words -/

/-- Byte `k` of the number `w` taken little-endian. -/
def tableByte (w k : Nat) : Byte := BitVec.ofNat 8 (w / 256 ^ k)

/-- The header whose bits are the low `nbits` of `w`, numbered as the opcode table numbers them.
A table word shorter than a header gives no checksum (the checksum covers all 16 bytes), so the
header is completed with the generated one, as R81 does for a written block (log entry 9). -/
def tableHeader (nbits w : Nat) : Bytes16 :=
  let v := w % 2 ^ nbits
  let B : Bytes16 :=
    ⟨tableByte v 0, tableByte v 1, tableByte v 2, tableByte v 3,
     tableByte v 4, tableByte v 5, tableByte v 6, tableByte v 7,
     tableByte v 8, tableByte v 9, tableByte v 10, tableByte v 11,
     tableByte v 12, tableByte v 13, tableByte v 14, tableByte v 15⟩
  if nbits < 128 then sealHeader B else B

/-- The bytes of a table word: none for a row without encoding (`EOS`, R68), else a header. -/
def tableBytes (nbits w : Nat) : List Byte :=
  if nbits = 0 then [] else (tableHeader nbits w).toList

/-- The instruction that the decoder reads from a table word, with the threshold of reset (R28). -/
def decodeTableWord (nbits w : Nat) : Option Instr :=
  match decode Config.fillThresholdDefault (tableBytes nbits w) with
  | .ok i    => some i
  | .error _ => none

end Sys2Proof
end

