-- ==== Sys2Proof/Machine/State.lean ====
section
/-! DEFINITION. The machine's state (`10_state.md`, `20_memory.md` R40 to R43), the reasons a step
can stop, and the state after reset (R31, R220). -/

namespace Sys2Proof.Machine

/-- `PSTATE`, the parser state (R22). -/
inductive PState where
  | awaitingFirst
  | streaming
  | done
  | error
deriving DecidableEq, Repr

/-- `ERR`, the sticky error code (R24). -/
inductive ErrCode where
  | none
  | checksumError
  | truncationError
  | capacityError
deriving DecidableEq, Repr

/-- The fatal errors of `60_exceptions.md` R190 to R192. Taking one is a next state (R196), not a
fault of the model. -/
inductive FatalError where
  | checksum
  | truncation
  | capacity
deriving DecidableEq, Repr

/-- Undefined uses of the engine by its host. No step raises one. -/
inductive Fault where
  /-- Raised by `hostWriteThreshold` once a step has run: forbidden, behaviour undefined
  (`93_implementation_defined.md` U7). Safe. -/
  | thresholdWrittenDuringRun
  /-- Raised by `hostPresentInput` once a step has run: forbidden, behaviour undefined (U8). Safe. -/
  | inputChangedDuringRun
deriving DecidableEq, Repr

/-- Why an instruction has no meaning. -/
inductive Refusal where
  /-- Raised by an arm of `exec` whose instruction has no meaning yet; none is left. Safe. -/
  | notModelled (mnemonic : String)
deriving DecidableEq, Repr

/-- The state of the engine. Names follow `10_state.md`; the last four fields are three
parameters and the model's own counter. -/
structure State where
  /-- `H`, the header register (R10). -/
  h : Bytes16
  /-- `E`, the output header register (R13). -/
  e : Bytes16
  /-- `XACC`, the checksum accumulator (R14). -/
  xacc : Byte
  /-- `ipos`, the input position, the program counter: the number of input bytes consumed, not reduced
  (R20). The register of `POS_W` bits is its view `State.iposRegister` (log entry 7). -/
  ipos : Nat
  /-- `opos`, the output position: the number of bytes appended to `OUT`, not reduced (R21). The register
  of `POS_W` bits is its view `State.oposRegister`. -/
  opos : Nat
  /-- `PSTATE` (R22). -/
  pstate : PState
  /-- `ERR` (R24). -/
  err : ErrCode
  /-- `W_OVW`, the sticky overwrite warning (R27). -/
  wOvw : Bool
  /-- `FILL_THRESHOLD` (R28). -/
  fillThreshold : Word
  /-- `IS` (R29). -/
  is : ImageSettings
  /-- `CS`, the chunk store, head first (R15). -/
  cs : List Chunk
  /-- `IN`, the input stream (`20_memory.md` R40). -/
  inp : List Byte
  /-- `OUT`, the output stream (R42). -/
  out : List Byte
  /-- `MAX_CHUNKS`, an OPEN parameter; `none` is unbounded (`00_scope.md` R1). -/
  maxChunks : Option Nat
  /-- `MAX_DATA_BYTES`, an OPEN parameter; `none` is unbounded (R1). -/
  maxDataBytes : Option Nat
  /-- `POS_W`, an OPEN parameter: the width of the position registers; `none` is unbounded (R1, D31). -/
  posWidth : Option Nat
  /-- The model's own field: how many free bytes have been drawn (log entry 3). -/
  freeCount : Nat
deriving DecidableEq, Repr

/-- The machine right after reset (R31, R220). `H`, `E` and `XACC` have no stated value (log entry
1); `IN` is what the host presents, nothing yet (R221, log entry 10). -/
def State.reset : State where
  h := Bytes16.zero
  e := Bytes16.zero
  xacc := 0
  ipos := 0
  opos := 0
  pstate := .awaitingFirst
  err := .none
  wOvw := false
  fillThreshold := Config.fillThresholdDefault
  is := ⟨0, 0, 0⟩
  cs := []
  inp := []
  out := []
  maxChunks := none
  maxDataBytes := none
  posWidth := none
  freeCount := 0

end Sys2Proof.Machine
end

