-- ==== Sys2Proof/Machine/Flags.lean ====
section
/-! DEFINITION. Status: the codes of `PSTATE` and `ERR`, the derived bits, the sticky warning, and
what the host can read (`10_state.md` R22 to R27, R33; `60_exceptions.md` R199). There are no
arithmetic condition codes (R26). -/

namespace Sys2Proof.Machine

/-- The codes of R22. -/
def PState.code : PState → Nat
  | .awaitingFirst => 0
  | .streaming     => 1
  | .done          => 2
  | .error         => 3

/-- The 2-bit codes of R24. -/
def ErrCode.code : ErrCode → BitVec 2
  | .none            => 0
  | .checksumError   => 1
  | .truncationError => 2
  | .capacityError   => 3

/-- `code(E)` of R196: what taking the error writes to `ERR`. -/
def FatalError.code : FatalError → ErrCode
  | .checksum   => .checksumError
  | .truncation => .truncationError
  | .capacity   => .capacityError

/-- `DONE`, a view of `PSTATE` (R25); also the level output `done` (R199). -/
def State.isDone (s : State) : Bool := s.pstate == .done

/-- `PSTATE = Error`; also the level output `err` (R199). -/
def State.isError (s : State) : Bool := s.pstate == .error

/-- `HALTED`, a view of `PSTATE` (R25). -/
def State.halted (s : State) : Bool := s.isDone || s.isError

/-- `W_OVW` after a covered write of `count` bytes: set when there is a byte to discard, else as it
was (R27, R155, R193). -/
def overwriteFlag (count : Word) (w : Bool) : Bool := w || (count != 0)

/-- A position in a register of `POS_W` bits: a finite register wraps, an unbounded one holds the
position itself (`00_scope.md` R1, R20). -/
def posWrap (width : Option Nat) (p : Nat) : Nat :=
  match width with
  | none   => p
  | some w => p % 2 ^ w

/-- The register `ipos` of `POS_W` bits (R20). Wrapping it does not move the stream, of which each byte
is read at most once (`20_memory.md` R40, log entry 7). -/
def State.iposRegister (s : State) : Nat := posWrap s.posWidth s.ipos

/-- The register `opos` of `POS_W` bits (R21). -/
def State.oposRegister (s : State) : Nat := posWrap s.posWidth s.opos

/-- What the host reads at a step boundary, and nothing else (R33). -/
structure Status where
  pstate        : PState
  err           : ErrCode
  done          : Bool
  halted        : Bool
  wOvw          : Bool
  fillThreshold : Word
  is            : ImageSettings
  ipos          : Nat
  opos          : Nat
  chunks        : Nat
deriving DecidableEq, Repr

/-- The status read-out of R33. -/
def State.status (s : State) : Status where
  pstate        := s.pstate
  err           := s.err
  done          := s.isDone
  halted        := s.halted
  wOvw          := s.wOvw
  fillThreshold := s.fillThreshold
  is            := s.is
  ipos          := s.iposRegister
  opos          := s.oposRegister
  chunks        := s.cs.length

end Sys2Proof.Machine
end

