-- ==== Sys2Proof/Machine/Operands.lean ====
section
/-! DEFINITION. The operand forms: what a header and a chunk record say to the merger
(`42_chunk_store.md` R141 to R148), with sums over the integers and no wrap (`00_scope.md` R5). -/

namespace Sys2Proof

/-- A Fill source: `FILL` set in the incoming block's flags (R141). -/
def Header.isFill (h : Header) : Bool := h.flags &&& 0x010 != 0

/-- `INIT` set in the incoming block's flags (R122). -/
def Header.hasInit (h : Header) : Bool := h.flags &&& 0x080 != 0

/-- Merge rule 1: no flag bit other than `FILL` (R143). -/
def Header.mergeable (h : Header) : Bool := h.flags &&& 0xFEF == 0

/-- Merge rule 2: a Fill-only block longer than the threshold, unsigned and strict (R144, R2). -/
def Header.largeFill (threshold : Word) (h : Header) : Bool :=
  (h.flags == 0x010) && decide (threshold.toNat < h.count.toNat)

/-- The integer just after the incoming range, not wrapped (R5). -/
def Header.endAddr (h : Header) : Nat := h.addr.toNat + h.count.toNat

/-- The flags a new record stores: a small Fill-only block stores `0x000` (R147, conflict C1). -/
def Header.storedFlags (threshold : Word) (h : Header) : Flags :=
  if h.flags = 0x010 ∧ h.count.toNat ≤ threshold.toNat then 0x000 else h.flags

/-- A Fill chunk: `FILL` set in the stored flags (R142). -/
def Chunk.isFill (c : Chunk) : Bool := c.flags &&& 0x010 != 0

/-- The integer just after the claimed range, not wrapped (R17). -/
def Chunk.endAddr (c : Chunk) : Nat := c.addr.toNat + c.length.toNat

/-- The bytes of the chunk's buffer; a chunk without a buffer has none (R43). -/
def Chunk.buf (c : Chunk) : List Byte := c.data.getD []

/-- The inclusive range comparator of merge rule 4 (R146). -/
def inRange (h : Header) (c : Chunk) : Bool :=
  decide (c.addr.toNat ≤ h.addr.toNat) && decide (h.addr.toNat ≤ c.endAddr)

/-- A chunk the scan can stop at: not a Fill chunk (R145), and in range (R146). -/
def eligible (h : Header) (c : Chunk) : Bool := !c.isFill && inRange h c

/-- `overhang`, a signed integer (R148). -/
def overhang (h : Header) (c : Chunk) : Int := (h.endAddr : Int) - (c.endAddr : Int)

/-- The new record of R147, before the write phase: length zero, an empty buffer unless its stored
flags have `FILL`. -/
def newChunk (threshold : Word) (h : Header) : Chunk where
  addr   := h.addr
  arg    := h.arg
  flags  := h.storedFlags threshold
  length := 0
  data   := if h.storedFlags threshold &&& 0x010 = 0 then some [] else none

/-- The four bytes of the fill word in the order they lie in the header (`20_memory.md` R47). -/
def Header.fillBytes (h : Header) : List Byte := le32bytes h.arg

end Sys2Proof
end

