-- ==== Sys2Proof/Machine/Ops.lean ====
section
/-! DEFINITION. The named operations: the pseudocode primitives of `00_scope.md` R6, taking a fatal
error (`60_exceptions.md` R196), the codec's `ENCODE` and the fetch half of `DECODE`
(`40_header_codec.md` R92, R95), the merger (`42_chunk_store.md` R157) and the serializer
(`43_block_serializer.md` R170, R179). -/

namespace Sys2Proof.Machine

/-! ### Taking a fatal error -/

/-- `raise E` (R196): `ERR` and `PSTATE` change and nothing else; the engine is halted. There is no
handler, no vector and no return (R198); only reset leaves `Error` (R220). -/
def raise (e : FatalError) (s : State) : State := { s with err := e.code, pstate := .error }

/-- How an operation that may raise ends the step of a block: in the state it gives, or, for a fatal
error, in the state at the start of the block's class rule with the error taken. What the chunk
store holds after an error is not observable; it is left as it was (R197, log entry 5). -/
def settle (s : State) : Except FatalError State → Host.Outcome State Fault Refusal
  | .ok t    => .next t
  | .error e => .next (raise e s)

/-! ### The streams (`20_memory.md` R40 to R42) -/

/-- `InAvail()` (R41). -/
def inAvail (s : State) : Nat := s.inp.length - s.ipos

/-- The input bytes not consumed yet, in stream order. -/
def unread (s : State) : List Byte := s.inp.drop s.ipos

/-- The bytes that `InRead(n)` gives (R6). -/
def inBytes (n : Nat) (s : State) : List Byte := (unread s).take n

/-- `InSkip(n)`, and the advance of `InRead(n)` (R6). The register `ipos` follows, modulo its width
(`iposRegister_inSkip` in Laws). -/
def inSkip (n : Nat) (s : State) : State := { s with ipos := s.ipos + n }

/-- `OutWrite(bs)` (R6, R42). The register `opos` follows, modulo its width (`oposRegister_outWrite`). -/
def outWrite (bs : List Byte) (s : State) : State :=
  { s with out := s.out ++ bs, opos := s.opos + bs.length }

/-- The payload test of R113: it comes before every effect of the block's class rule. -/
def requirePayload (h : Header) (s : State) (body : Except FatalError State) : Except FatalError State :=
  if inAvail s < h.count.toNat then .error .truncation else body

/-! ### The header codec -/

/-- The register effects of `DECODE` (R92): the 16 bytes go to `H` and are consumed, whether or not
the test passes, and `XACC` is their XOR. With fewer than sixteen bytes it is not performed. -/
def latchHeader (s : State) : State :=
  match Bytes16.ofPrefix (unread s) with
  | some B => { s with h := B, xacc := xor16 B, ipos := s.ipos + Config.headerSize }
  | none   => s

/-- `ENCODE` (R95): `E` is packed, `XACC` generated, the 16 bytes written. -/
def emitHeader (hd : Header) (s : State) : State :=
  outWrite (encodeHeader hd).toList { s with e := encodeHeader hd, xacc := genChecksum (pack hd 0) }

/-! ### Chunk buffers (`20_memory.md` R43) -/

/-- Bytes written over a buffer from an offset on; `BufWrite` stays inside the buffer. -/
def writeAt (d : List Byte) (off : Nat) (bs : List Byte) : List Byte :=
  d.take off ++ bs ++ d.drop (off + bs.length)

/-- `n` unspecified bytes, the draws `ctr .. ctr + n - 1` (R58, R150). -/
def freeBytes (ctr n : Nat) : List Byte := (List.range' ctr n).map Config.freeByte

/-- `BufRead(c, off, n)` (R6). -/
def bufRead (c : Chunk) (off n : Nat) : List Byte := (c.buf.drop off).take n

/-- `BufWrite(c, off, bs)` (R6). -/
def bufWrite (c : Chunk) (off : Nat) (bs : List Byte) : Chunk :=
  { c with data := some (writeAt c.buf off bs) }

/-- `BufGrow(c, n)` (R150): old bytes stay, new ones are unspecified until written. -/
def bufGrow (c : Chunk) (n ctr : Nat) : Chunk := { c with data := some (c.buf ++ freeBytes ctr n) }

/-- `c.length <- c.length + n` (R149). -/
def lengthen (c : Chunk) (n : Nat) : Chunk := { c with length := c.length + BitVec.ofNat 32 n }

/-- The loop of R151: the fill word written `q` times from an offset on. -/
def unroll (word : List Byte) : Nat → Nat → Chunk → Chunk
  | 0,     _,   c => c
  | q + 1, off, c => unroll word q (off + Config.fillWord) (bufWrite c off word)

/-! ### The chunk store: find -/

/-- Where the merger works: the chunk the cursor stands on, with the records before and after it
(the cursors `cur` and `prev` of `10_state.md` R30). -/
structure Target where
  pre   : List Chunk
  chunk : Chunk
  post  : List Chunk
deriving DecidableEq, Repr

/-- The store with the target chunk replaced; no other record moves or changes (R158). -/
def putChunk (t : Target) (c : Chunk) : List Chunk := t.pre ++ c :: t.post

/-- The scan from the head: the first eligible chunk (R146). -/
def scan (hd : Header) : List Chunk → Option Target
  | []      => none
  | c :: cs =>
    if eligible hd c then some ⟨[], c, cs⟩
    else match scan hd cs with
      | some t => some ⟨c :: t.pre, t.chunk, t.post⟩
      | none   => none

/-- Merge rules 1 to 4: a block that may not merge skips the scan (R143, R144). -/
def findTarget (hd : Header) (s : State) : Option Target :=
  if hd.mergeable && !hd.largeFill s.fillThreshold then scan hd s.cs else none

/-! ### The chunk store: capacity (R156) -/

/-- No record can be appended: `len(CS)` has reached `MAX_CHUNKS`. -/
def storeFull (s : State) : Bool :=
  match s.maxChunks with
  | none   => false
  | some n => decide (n ≤ s.cs.length)

/-- The bytes in all chunk data buffers (R1, `MAX_DATA_BYTES`). -/
def dataBytes (cs : List Chunk) : Nat := (cs.map fun c => c.buf.length).sum

/-- The buffers cannot grow by `n` bytes. -/
def dataFull (n : Nat) (s : State) : Bool :=
  match s.maxDataBytes with
  | none   => false
  | some m => decide (m < dataBytes s.cs + n)

/-- A chunk cannot get `n` bytes longer: its length would not fit in 32 bits (R149). -/
def lengthFull (c : Chunk) (n : Nat) : Bool := decide (Config.lengthBound ≤ c.length.toNat + n)

/-! ### The chunk store: create -/

/-- R147: a new record at the tail, unless the store is full. -/
def createTarget (hd : Header) (s : State) : Except FatalError Target :=
  if storeFull s then .error .capacity else .ok ⟨s.cs, newChunk s.fillThreshold hd, []⟩

/-- The chunk a block goes to: the one the scan stops at, or a new one (R157). -/
def mergeTarget (hd : Header) (s : State) : Except FatalError Target :=
  match findTarget hd s with
  | some t => .ok t
  | none   => createTarget hd s

/-! ### The chunk store: extend or discard -/

/-- R151 and R152: a Fill source into a buffer. The trailing `count mod 4` bytes of the block's range
are not written. -/
def unrollInto (hd : Header) (t : Target) (n : Nat) (s : State) : State :=
  let grown := bufGrow t.chunk n s.freeCount
  let off := hd.addr.toNat - t.chunk.addr.toNat
  let filled := unroll hd.fillBytes (hd.count.toNat / Config.fillWord) off grown
  { s with cs := putChunk t (lengthen filled n), freeCount := s.freeCount + n }

/-- R154: a Fill source into a Fill chunk. No byte is written, the claimed length advances. -/
def claimOnly (t : Target) (n : Nat) (s : State) : State :=
  { s with cs := putChunk t (lengthen t.chunk n) }

/-- R153: a literal source. The covered head of the payload is skipped, the overhanging tail goes to
the old end of the buffer. -/
def literalInto (hd : Header) (t : Target) (n : Nat) (s : State) : State :=
  let grown := bufGrow t.chunk n s.freeCount
  let s1 := inSkip (hd.count.toNat - n) s
  let written := bufWrite grown t.chunk.length.toNat (inBytes n s1)
  let s2 := inSkip n s1
  { s2 with cs := putChunk t (lengthen written n), freeCount := s.freeCount + n }

/-- R149 to R154: the target grows by `n = overhang > 0` bytes, each check before its change
(R156). Only a materialized target's buffer grows. -/
def extend (hd : Header) (t : Target) (n : Nat) (s : State) : Except FatalError State :=
  if lengthFull t.chunk n then .error .capacity
  else if hd.isFill then
    if t.chunk.isFill then .ok (claimOnly t n s)
    else if dataFull n s then .error .capacity
    else .ok (unrollInto hd t n s)
  else if dataFull n s then .error .capacity
  else .ok (literalInto hd t n s)

/-- R155: nothing is copied; a literal payload is consumed and dropped; the warning is set when there
is a byte to discard. A record that this block created stays (R159). -/
def coveredWrite (hd : Header) (t : Target) (s : State) : State :=
  let s1 := if hd.isFill then s else inSkip hd.count.toNat s
  { s1 with cs := putChunk t t.chunk, wOvw := overwriteFlag hd.count s.wOvw }

/-- The write phase of R157. -/
def writeTarget (hd : Header) (t : Target) (s : State) : Except FatalError State :=
  if 0 < overhang hd t.chunk then extend hd t (overhang hd t.chunk).toNat s
  else .ok (coveredWrite hd t s)

/-- `MERGE` (R157). -/
def merge (hd : Header) (s : State) : Except FatalError State :=
  match mergeTarget hd s with
  | .error e => .error e
  | .ok t    => writeTarget hd t s

/-! ### The block serializer -/

/-- The bytes a chunk adds to an image besides its header (R171). -/
def payloadSize (c : Chunk) : Nat := if c.isFill then 0 else c.length.toNat

/-- The size of an image in bytes, not reduced: its sizing header, and per chunk a header and the
payload of a materialized chunk (R171). -/
def imageBytes (cs : List Chunk) : Nat :=
  Config.headerSize + (cs.map fun c => Config.headerSize + payloadSize c).sum

/-- `image_size` (R171): the size mod `2^32`. -/
def imageSize (cs : List Chunk) : Word := BitVec.ofNat 32 (imageBytes cs)

/-- `EMIT.SIZING` (R173). -/
def emitSizing (s : State) : State := emitHeader (sizingHeader s.is (imageSize s.cs)) s

/-- `EMIT.CHUNK` (R175, R176): the header, then the whole buffer of a materialized chunk. -/
def emitChunk (c : Chunk) (s : State) : State :=
  let s1 := emitHeader (chunkHeader s.is c) s
  if c.isFill then s1 else outWrite (bufRead c 0 c.length.toNat) s1

/-- The chunks of a store emitted head to tail (R174). -/
def emitChunks : List Chunk → State → State
  | [],      s => s
  | c :: cs, s => emitChunks cs (emitChunk c s)

/-- `FLUSH` (R170): sizing header, chunks in list order, and the store is empty (R177). -/
def flush (s : State) : State := { emitChunks s.cs (emitSizing s) with cs := [] }

/-- `if len(CS) > 0: FLUSH()`, as every caller but the INIT flush tests (R178). -/
def flushIfAny (s : State) : State := if s.cs.isEmpty then s else flush s

/-- The INIT flush at the end of a data block's step (R122). -/
def initFlush (hd : Header) (s : State) : State := if hd.hasInit then flush s else s

/-- `TERMINATE` / `EMIT.TERM` (R179). -/
def terminate (s : State) : State := emitHeader (termHeader s.is) s

/-- The end of a run, shared by `FINAL` and `EOS` (R111, R115): flush, terminator, `Done`. -/
def finishRun (s : State) : State := { terminate (flushIfAny s) with pstate := .done }

/-! ### The store's canonical form -/

/-- The canonical form of the buffer space: every record is in the form of `Chunk.wf` (R19 (a),
R142). -/
def Memory.wf (cs : List Chunk) : Bool := cs.all Chunk.wf

end Sys2Proof.Machine
end

