-- ==== Sys2Proof/Machine/DataBlocks.lean ====
section
/-! DEFINITION. The meanings of the seven data classes (`41_stream_parser.md` R117 to R122). -/

namespace Sys2Proof.Machine

/-- A literal data block (R117, R120): the payload test, the merge, and the INIT flush, which only a
block with `INIT` has. -/
def literalBlock (hd : Header) (s : State) : Except FatalError State :=
  requirePayload hd s ((merge hd s).map (initFlush hd))

/-- A Fill data block (R118, R119, R121): it has no payload. -/
def fillBlock (hd : Header) (s : State) : Except FatalError State :=
  (merge hd s).map (initFlush hd)

/-- `do_DATA` (R117). -/
def execData (hd : Header) (s : State) : Host.Outcome State Fault Refusal := settle s (literalBlock hd s)

/-- `do_FILL_S` (R118). -/
def execFillS (hd : Header) (s : State) : Host.Outcome State Fault Refusal := settle s (fillBlock hd s)

/-- `do_FILL_L` (R119): merge rule 2 skips the scan. -/
def execFillL (hd : Header) (s : State) : Host.Outcome State Fault Refusal := settle s (fillBlock hd s)

/-- `do_XDATA` for a block with `INIT` (R120, R122). -/
def execXdataInit (hd : Header) (s : State) : Host.Outcome State Fault Refusal := settle s (literalBlock hd s)

/-- `do_XFILL` for a block with `INIT` (R121, R122). -/
def execXfillInit (hd : Header) (s : State) : Host.Outcome State Fault Refusal := settle s (fillBlock hd s)

/-- `do_XDATA` for a block without `INIT` (R120). -/
def execXdata (hd : Header) (s : State) : Host.Outcome State Fault Refusal := settle s (literalBlock hd s)

/-- `do_XFILL` for a block without `INIT` (R121). -/
def execXfill (hd : Header) (s : State) : Host.Outcome State Fault Refusal := settle s (fillBlock hd s)

end Sys2Proof.Machine
end

