-- ==== Sys2Proof/Machine/Parser.lean ====
section
/-! DEFINITION. The stream parser: fetching the next block (`41_stream_parser.md` R110), and the
meanings of `FIRST`, `FINAL`, `IGNORE` and `EOS`. -/

namespace Sys2Proof.Machine

/-- What the fetch of a step finds. -/
inductive Fetched where
  /-- The engine is halted: the step changes nothing (R110). -/
  | idle
  /-- A fatal error was taken before any class rule. -/
  | stopped (s : State)
  /-- An instruction, with the state its class rule starts from. -/
  | run (i : Instr) (s : State)
deriving DecidableEq, Repr

/-- The fetch of `STEP` (R110), in the order of tests of `60_exceptions.md` R195: halted; end of
input, which is `EOS`; a short header, of which no byte is consumed (R191 (a)); the checksum, after
the 16 bytes are read (R190); the class. -/
def fetch (s : State) : Fetched :=
  if s.halted then .idle
  else match decode s.fillThreshold (unread s) with
    | .ok i                    => .run i (latchHeader s)
    | .error .truncatedHeader  => .stopped (raise .truncation s)
    | .error .checksum         => .stopped (raise .checksum (latchHeader s))

/-- `do_FIRST` (R114): flush with the OLD settings, then capture. -/
def execFirst (hd : Header) (s : State) : Host.Outcome State Fault Refusal :=
  .next { flushIfAny s with is := ⟨hd.sig, hd.bcode, hd.addr⟩, pstate := .streaming }

/-- `do_FINAL` (R115): no field of the Final block is used. -/
def execFinal (_ : Header) (s : State) : Host.Outcome State Fault Refusal := .next (finishRun s)

/-- `do_IGNORE` (R116). -/
def execIgnore (hd : Header) (s : State) : Host.Outcome State Fault Refusal :=
  settle s (requirePayload hd s (.ok (inSkip hd.count.toNat s)))

/-- `EOS` (R111): as for a Final block. -/
def execEos (s : State) : Host.Outcome State Fault Refusal := .next (finishRun s)

/-! ### Placing a table word -/

/-- The number of payload bytes that the class of a header consumes (R76). -/
def payloadOf (threshold : Word) (B : Bytes16) : Nat := (classify threshold (unpack B)).payloadLength

/-- The bytes of the block of a table word: its header and, where its class has a payload, payload
bytes of zeros (bits above the word). -/
def tableBlock (threshold : Word) (nbits w : Nat) : List Byte :=
  if nbits = 0 then []
  else (tableHeader nbits w).toList ++ List.replicate (payloadOf threshold (tableHeader nbits w)) 0

/-- The input with a block stored at the input position: bytes before it stay (bytes missing there
are zeros), bytes beyond the block stay; for `EOS`, which has no bytes, the input ends there. -/
def placeAt (inp : List Byte) (ipos : Nat) (block : List Byte) : List Byte :=
  let before := inp.take ipos ++ List.replicate (ipos - inp.length) 0
  if block.isEmpty then before else before ++ block ++ inp.drop (ipos + block.length)

end Sys2Proof.Machine
end

