-- ==== Sys2Proof/Machine/Serializer.lean ====
section
/-! DEFINITION. The meanings of the three emitted forms (`43_block_serializer.md` R173, R175, R176,
R179). A step performs them through `flush` and `terminate`; the input holds none of them. -/

namespace Sys2Proof.Machine

/-- `EMIT.SIZING` (R173). -/
def execEmitSizing (s : State) : Host.Outcome State Fault Refusal := .next (emitSizing s)

/-- `EMIT.CHUNK` (R175, R176). -/
def execEmitChunk (c : Chunk) (s : State) : Host.Outcome State Fault Refusal := .next (emitChunk c s)

/-- `EMIT.TERM` (R179). -/
def execEmitTerm (s : State) : Host.Outcome State Fault Refusal := .next (terminate s)

end Sys2Proof.Machine
end

