-- ==== Sys2Proof/Machine/Dispatch.lean ====
section
/-! DEFINITION. One arm per constructor of `Instr`: the dispatch of `STEP` (`41_stream_parser.md` R110). -/

namespace Sys2Proof.Machine

def exec (i : Instr) (s : State) : Host.Outcome State Fault Refusal :=
  match i with
  | .first hd => Sys2Proof.Machine.execFirst hd s
  | .final hd => Sys2Proof.Machine.execFinal hd s
  | .ignore hd => Sys2Proof.Machine.execIgnore hd s
  | .data hd => Sys2Proof.Machine.execData hd s
  | .fillS hd => Sys2Proof.Machine.execFillS hd s
  | .fillL hd => Sys2Proof.Machine.execFillL hd s
  | .xdataInit hd => Sys2Proof.Machine.execXdataInit hd s
  | .xfillInit hd => Sys2Proof.Machine.execXfillInit hd s
  | .xdata hd => Sys2Proof.Machine.execXdata hd s
  | .xfill hd => Sys2Proof.Machine.execXfill hd s
  | .emitSizing => Sys2Proof.Machine.execEmitSizing s
  | .emitChunk c => Sys2Proof.Machine.execEmitChunk c s
  | .emitTerm => Sys2Proof.Machine.execEmitTerm s
  | .eos => Sys2Proof.Machine.execEos s

end Sys2Proof.Machine
end

