-- ==== Sys2Proof/Machine/Step.lean ====
section
/-! DEFINITION. One step of the engine (`41_stream_parser.md` R110), and where a table word is placed
so that the next step runs it. -/

namespace Sys2Proof.Machine

/-- `STEP` (R110): at most one input block, completely (R7). -/
def step (s : State) : Host.Outcome State Fault Refusal :=
  match fetch s with
  | .idle      => .next s
  | .stopped t => .next t
  | .run i t   => exec i t

/-- The block of a table word stored in `IN` at the input position, where the next step fetches. -/
def State.withFetchWord (s : State) (nbits w : Nat) : State :=
  { s with inp := placeAt s.inp s.ipos (tableBlock s.fillThreshold nbits w) }

end Sys2Proof.Machine
end

