-- ==== Sys2Proof/Machine/HostPort.lean ====
section
/-! DEFINITION. What the host can do to the engine between steps (`70_reset_and_hazards.md` R220 to
R222, R233, R234; `60_exceptions.md` R201). None of it is part of a step. -/

namespace Sys2Proof.Machine

/-- Applying reset (R220, R221): every piece of state at its reset value, pending chunks discarded,
`OUT` empty. `IN` is not altered, nor are the parameters of the implementation or the count of
draws. -/
def hostReset (s : State) : State :=
  { State.reset with
    inp := s.inp, maxChunks := s.maxChunks, maxDataBytes := s.maxDataBytes, posWidth := s.posWidth
    freeCount := s.freeCount }

/-- Between reset and the first step (R28, R233): every step of a fresh engine consumes a header or
halts, so this is seen in the state. -/
def State.fresh (s : State) : Bool := (s.pstate == .awaitingFirst) && (s.ipos == 0)

/-- The host writes `FILL_THRESHOLD`; every value is legal (R28). After the first step it is
forbidden and the behaviour undefined (`93_implementation_defined.md` U7). -/
def hostWriteThreshold (v : Word) (s : State) : Host.Outcome State Fault Refusal :=
  if s.fresh then .next { s with fillThreshold := v } else .fault .thresholdWrittenDuringRun

/-- The host presents `IN` from offset 0 (R222 (3)). During a run `IN` must not change (U8). -/
def hostPresentInput (bs : List Byte) (s : State) : Host.Outcome State Fault Refusal :=
  if s.fresh then .next { s with inp := bs } else .fault .inputChangedDuringRun

end Sys2Proof.Machine
end

