-- ==== Sys2Proof/Safety.lean ====
section
/-! DEFINITION. The terms the claims use: the match condition and the room conditions of the merger in
the spec's own words, the invariant of the machine, the images the output is made of, and what a
successful run is. -/

namespace Sys2Proof.Machine

/-! ### The merger's conditions -/

/-- A chunk that merge rules 3 and 4 accept for a block: not a Fill chunk, and the block's start in
the inclusive range, on unwrapped sums (`42_chunk_store.md` R145, R146). -/
def Matches (hd : Header) (c : Chunk) : Prop :=
  c.flags &&& 0x010 = 0 ∧ c.addr.toNat ≤ hd.addr.toNat ∧ hd.addr.toNat ≤ c.addr.toNat + c.length.toNat

/-- No chunk of a list is a match. -/
def NoMatch (hd : Header) (cs : List Chunk) : Prop := ∀ c ∈ cs, ¬ Matches hd c

/-- The first match in list order: every chunk before it is none (R146). -/
def FirstMatch (hd : Header) (pre : List Chunk) (c : Chunk) : Prop := NoMatch hd pre ∧ Matches hd c

/-- A block that merge rules 1 and 2 let take part in the scan (R143, R144). -/
def MayMerge (threshold : Word) (hd : Header) : Prop :=
  hd.flags &&& 0xFEF = 0 ∧ ¬ (hd.flags = 0x010 ∧ threshold.toNat < hd.count.toNat)

/-- One more record fits (`00_scope.md` R1, `MAX_CHUNKS`). -/
def RoomForChunk (s : State) : Prop := ∀ n, s.maxChunks = some n → s.cs.length < n

/-- A growth of the buffers by `n` bytes fits (R1, `MAX_DATA_BYTES`); no growth always does. -/
def RoomForBytes (n : Nat) (s : State) : Prop :=
  0 < n → ∀ m, s.maxDataBytes = some m → dataBytes s.cs + n ≤ m

/-- The block's whole payload is on the input (`41_stream_parser.md` R113). -/
def PayloadPresent (hd : Header) (s : State) : Prop := hd.count.toNat ≤ s.inp.length - s.ipos

/-- The payload bytes of a block whose header has been consumed, in stream order. -/
def payloadBytes (hd : Header) (s : State) : List Byte := (s.inp.drop s.ipos).take hd.count.toNat

/-- A materialized chunk with the buffer `d`, of exactly its length (R142). -/
def HasBuffer (c : Chunk) (d : List Byte) : Prop := c.data = some d ∧ d.length = c.length.toNat

/-- The fill word laid down `q` times, in the order of `20_memory.md` R47. -/
def fillRun (hd : Header) (q : Nat) : List Byte := (List.replicate q (le32bytes hd.arg)).flatten

/-! ### The invariant -/

/-- What holds of the machine at every step boundary. -/
structure Inv (s : State) : Prop where
  /-- Every record is in its canonical form (R19 (a), R142). -/
  store : Memory.wf s.cs = true
  /-- `opos = len(OUT)` (R21). -/
  opos : s.opos = s.out.length
  /-- Only input bytes that exist are consumed (R20, R41). -/
  ipos : s.ipos ≤ s.inp.length
  /-- `ERR != 0` if and only if `PSTATE = Error` (R24). -/
  err : s.err ≠ .none ↔ s.pstate = .error
  /-- Before any First block the settings have their reset values (R32). -/
  settings : s.pstate = .awaitingFirst → s.is = ⟨0, 0, 0⟩
  /-- A successful run leaves no chunk behind (R170, R115, R111). -/
  drained : s.pstate = .done → s.cs = []
  /-- `MAX_CHUNKS` is kept (R156). -/
  chunks : ∀ n, s.maxChunks = some n → s.cs.length ≤ n
  /-- `MAX_DATA_BYTES` is kept (R156). -/
  bytes : ∀ m, s.maxDataBytes = some m → dataBytes s.cs ≤ m

/-! ### The shape of the output (`43_block_serializer.md` R180) -/

/-- One image: what one flush writes. -/
structure Image where
  is : ImageSettings
  cs : List Chunk
deriving DecidableEq, Repr

/-- An image has at least one chunk, each in canonical form (R178, R142). -/
def Image.wf (im : Image) : Bool := !im.cs.isEmpty && Memory.wf im.cs

/-- The emitted bytes of the chunks of an image, in list order (R174). -/
def chunkBytes (st : ImageSettings) (cs : List Chunk) : List Byte :=
  cs.flatMap fun c => encodeEmitted st 0 (.emitChunk c)

/-- `EMIT.SIZING ( EMIT.CHUNK payload? )+` (R180). -/
def Image.bytes (im : Image) : List Byte :=
  encodeEmitted im.is (imageSize im.cs) .emitSizing ++ chunkBytes im.is im.cs

/-- The terminator's bytes (R179). -/
def termBytes (st : ImageSettings) : List Byte := encodeEmitted st 0 .emitTerm

/-- `OUT = image*`, with the terminator after it exactly when the run is `Done` (R180). -/
def OutputShape (s : State) : Prop :=
  ∃ ims : List Image, (∀ im ∈ ims, im.wf = true) ∧
    s.out = ims.flatMap Image.bytes ++ (if s.pstate = .done then termBytes s.is else [])

/-! ### Runs -/

/-- A safe run from a state: some number of steps ends in `Done` (R125). -/
def RunsToDone (s : State) : Prop := ∃ k t, core.run k s = .next t ∧ t.pstate = .done

end Sys2Proof.Machine
end

