-- ==== Sys2Proof/Certificates/Slice0/Obligations.lean ====
section
/-! DEFINITION. The statements about the model, for the provers. They rest on the numbered rules of
spec/; where a statement is about a choice of the model, its docstring says so. In the results of
an instruction that grows a buffer, `freeCount` (the model's own count of free draws, log entry 3) is
left open. -/

open Sys2Proof Sys2Proof.Machine

/-! ### Header codec -/

/-- R95: `ENCODE` writes a header whose fields are the operands and whose byte 2 is the generated
checksum, to `E` and to `OUT`; `XACC` holds the checksum; nothing else changes. -/
def Obligations.EncodeWritesSealedHeader : Prop :=
  ∀ (hd : Header) (s : State), ∃ B : Bytes16,
    emitHeader hd s = { s with e := B, xacc := B.b2, out := s.out ++ B.toList, opos := s.opos + 16 } ∧
    unpack B = hd ∧ B.b2 = xor16 { B with b2 := 0 } ∧ xor16 B = 0

/-- R96: encode after decode reproduces every valid header, and decode after encode gives the fields
back. -/
def Obligations.HeaderRoundTrip : Prop :=
  (∀ B : Bytes16, xor16 B = 0 → encodeHeader (unpack B) = B) ∧
  (∀ hd : Header, xor16 (encodeHeader hd) = 0 ∧ unpack (encodeHeader hd) = hd)

/-- R94, its first sentence, and source Scenario E: a valid header with one bit flipped, in any of
its 16 bytes, stops the run with `ChecksumError`. That `XACC` shows the flipped bit after the step is
the model's choice (R94 gives the value, log entry 13 keeps it between steps). -/
def Obligations.OneFlippedBitStopsTheRun : Prop :=
  ∀ (s : State) (B : Bytes16) (k i : Nat) (rest : List Byte),
    s.halted = false → k < 16 → i < 8 → xor16 B = 0 →
    s.inp.drop s.ipos = B.toList.modify k (fun b => b ^^^ (1#8 <<< i)) ++ rest →
    ∃ B' : Bytes16, B'.toList = B.toList.modify k (fun b => b ^^^ (1#8 <<< i)) ∧
      step s = .next { s with h := B', xacc := 1#8 <<< i, ipos := s.ipos + 16,
                              err := .checksumError, pstate := .error }

/-- R190: a header whose XOR is not zero, in any non-halted state: code 1, `H` holds the bytes,
`ipos` points just past them, nothing else changes but `XACC`, whose value after the step is the model's
choice (log entry 13). -/
def Obligations.BadHeaderTakesChecksumError : Prop :=
  ErrCode.checksumError.code = 1 ∧
  ∀ (s : State) (B : Bytes16) (rest : List Byte),
    s.halted = false → s.inp.drop s.ipos = B.toList ++ rest → xor16 B ≠ 0 →
    step s = .next { s with h := B, xacc := xor16 B, ipos := s.ipos + 16,
                            err := .checksumError, pstate := .error }

/-- R191: the input ends inside a block. (a) in the header: no byte is consumed; (b) in the payload
of a class that has one: the header's 16 bytes are consumed and no payload byte. Code 2. The value of
`XACC` after (b) is the model's choice (log entry 13). -/
def Obligations.TruncatedBlockTakesTruncationError : Prop :=
  ErrCode.truncationError.code = 2 ∧
  (∀ s : State, s.halted = false → s.ipos < s.inp.length → s.inp.length - s.ipos < 16 →
    step s = .next { s with err := .truncationError, pstate := .error }) ∧
  (∀ (s : State) (B : Bytes16) (rest : List Byte) (i : Instr),
    s.halted = false → s.inp.drop s.ipos = B.toList ++ rest →
    decode s.fillThreshold (B.toList ++ rest) = .ok i → rest.length < i.payloadLength →
    step s = .next { s with h := B, xacc := 0, ipos := s.ipos + 16,
                            err := .truncationError, pstate := .error })

/-! ### Encoding of blocks -/

/-- R62, R67, R96: an input block's header, encoded and decoded with the threshold in force, is the
instruction with every field, whatever follows it; `EOS` is the end of the input (R68). -/
def Obligations.DecodeOfEncodeIsTheInstruction : Prop :=
  ∀ (threshold : Word) (i : Instr) (rest : List Byte),
    wellFormed threshold i = true → i.isInput = true → (i = .eos → rest = []) →
    decode threshold (encode i ++ rest) = .ok i

/-- The other direction: whatever decodes is a well-formed input instruction whose encoding is the
bytes read, so no two valid headers stand for one instruction. -/
def Obligations.EncodeOfDecodeIsTheBytes : Prop :=
  ∀ (threshold : Word) (bs : List Byte) (i : Instr),
    decode threshold bs = .ok i →
    wellFormed threshold i = true ∧ i.isInput = true ∧ encode i = bs.take 16

/-- R67: the priority decode of R65 and R66 is the class table: the first row that matches a header
names its class. -/
def Obligations.ClassTableNamesTheClass : Prop :=
  ∀ (threshold : Word) (B : Bytes16),
    (classTable.find? (ClassRow.matchesHeader threshold B)).map ClassRow.mnemonic =
      some (classify threshold (unpack B)).mnemonic

/-- R66, R67: with the order of priority exactly one class holds of a header: two well-formed
instructions of one header are the same. -/
def Obligations.OneClassPerHeader : Prop :=
  ∀ (threshold : Word) (hd : Header) (i j : Instr),
    wellFormed threshold i = true → wellFormed threshold j = true →
    i.header? = some hd → j.header? = some hd → i = j

/-- R77, R172: the three emitted forms can be told apart in `OUT` and give back every field, with
the payload of a materialized chunk, whatever follows. -/
def Obligations.EmittedFormsReadBack : Prop :=
  ∀ (threshold total : Word) (st : ImageSettings) (i : Instr) (rest : List Byte),
    wellFormed threshold i = true → i.isInput = false →
    decodeEmitted (encodeEmitted st total i ++ rest) = some (i, rest)

/-- Words written out from `30_encoding.md` section 9, decoded at the default threshold (a sanity
statement). -/
def Obligations.WorkedEncodingsDecode : Prop :=
  decode 256 [0x06, 0x50, 0xE4, 0xAD, 0, 0, 0xA0, 0xFF, 0, 0, 0, 0, 0x40, 0, 0, 0] =
    .ok (.first ⟨6, 0x500, 0xAD, 0xFFA00000, 0, 0x40⟩) ∧
  decode 256 [0x06, 0x00, 0xAB, 0xAD, 0, 0x10, 0, 0, 0x10, 0, 0, 0, 0, 0, 0, 0] =
    .ok (.data ⟨6, 0x000, 0xAD, 0x1000, 0x10, 0⟩) ∧
  decode 256 [0x06, 0x01, 0xCA, 0xAD, 0, 0x20, 0, 0, 0x40, 0, 0, 0, 0xFF, 0xFF, 0xFF, 0xFF] =
    .ok (.fillS ⟨6, 0x010, 0xAD, 0x2000, 64, 0xFFFFFFFF⟩) ∧
  decode 256 [0x06, 0x08, 0xF4, 0xAD, 0, 0, 0xA0, 0xFF, 0x08, 0, 0, 0, 0, 0, 0, 0] =
    .ok (.xdataInit ⟨6, 0x080, 0xAD, 0xFFA00000, 8, 0⟩) ∧
  decode 256 [0x06, 0x80, 0x74, 0xAD, 0, 0, 0xA0, 0xFF, 0, 0, 0, 0, 0, 0, 0, 0] =
    .ok (.final ⟨6, 0x800, 0xAD, 0xFFA00000, 0, 0⟩)

/-! ### The step -/

/-- R110: a step of an engine that is not halted runs the instruction that the unread input decodes
to, after `DECODE` has put its header in `H`, zero in `XACC` and 16 on `ipos`; the end of the
input runs `EOS` with no header. -/
def Obligations.StepRunsTheDecodedInstruction : Prop :=
  (∀ s : State, s.halted = false → s.inp.drop s.ipos = [] → step s = exec .eos s) ∧
  (∀ (s : State) (B : Bytes16) (rest : List Byte) (i : Instr),
    s.halted = false → s.inp.drop s.ipos = B.toList ++ rest →
    decode s.fillThreshold (B.toList ++ rest) = .ok i →
    step s = exec i { s with h := B, xacc := 0, ipos := s.ipos + 16 })

/-- R110: in `Done` and in `Error` a step changes no state at all. -/
def Obligations.HaltedStepChangesNothing : Prop :=
  ∀ s : State, s.pstate = .done ∨ s.pstate = .error → step s = .next s

/-- R124: from every state, `floor(InAvail/16) + 1` steps end in `Done` or `Error`; no step faults or
refuses on the way. From reset, `InAvail` is `len(IN)`. -/
def Obligations.RunHaltsWithinBound : Prop :=
  ∀ s : State, ∃ t : State,
    core.run ((s.inp.length - s.ipos) / 16 + 1) s = .next t ∧ (t.pstate = .done ∨ t.pstate = .error)

/-- R23: the complete list of `PSTATE` transitions of a step, by what the unread input decodes to.
A class rule other than `FIRST`, `FINAL` and `EOS` leaves `PSTATE` and `ERR` or takes an error. -/
def Obligations.PstateFollowsTheTransitionList : Prop :=
  ∀ s t : State, step s = .next t →
    (s.halted = true → t.pstate = s.pstate) ∧
    (s.halted = false →
      match decode s.fillThreshold (s.inp.drop s.ipos) with
      | .error _     => t.pstate = .error
      | .ok .eos     => t.pstate = .done
      | .ok (.final _) => t.pstate = .done
      | .ok (.first _) => t.pstate = .streaming
      | .ok _        => (t.pstate = s.pstate ∧ t.err = s.err) ∨ (t.pstate = .error ∧ t.err ≠ .none))

/-- R23: no rule distinguishes `AwaitingFirst` from `Streaming`: the same step from `Streaming` gives
the same state but for `PSTATE`. -/
def Obligations.AwaitingFirstActsAsStreaming : Prop :=
  ∀ s t : State, s.pstate = .awaitingFirst → step s = .next t →
    ∃ p : PState, step { s with pstate := .streaming } = .next { t with pstate := p }

/-- R24: the codes; `ERR` is sticky through steps and cleared by reset, and `ERR != 0` exactly when
`PSTATE = Error` is kept by every step. -/
def Obligations.ErrIsStickyAndMeansError : Prop :=
  ErrCode.none.code = 0 ∧ ErrCode.checksumError.code = 1 ∧ ErrCode.truncationError.code = 2 ∧
  ErrCode.capacityError.code = 3 ∧
  (∀ s : State, (hostReset s).err = .none ∧ (hostReset s).pstate ≠ .error) ∧
  (∀ s t : State, (s.err ≠ .none ↔ s.pstate = .error) → step s = .next t →
    (t.err ≠ .none ↔ t.pstate = .error) ∧ (s.err ≠ .none → t.err = s.err))

/-- R29: `IS` is written only by a First block, all three registers together, from its header; a flush
leaves it, the host cannot write it, and reset makes it zero. -/
def Obligations.OnlyFirstWritesTheSettings : Prop :=
  (∀ s t : State, step s = .next t →
    (∀ hd, s.halted = false → decode s.fillThreshold (s.inp.drop s.ipos) = .ok (.first hd) →
      t.is = ⟨hd.sig, hd.bcode, hd.addr⟩) ∧
    (t.is ≠ s.is → ∃ hd, s.halted = false ∧
      decode s.fillThreshold (s.inp.drop s.ipos) = .ok (.first hd))) ∧
  (∀ s : State, (flush s).is = s.is ∧ (hostReset s).is = ⟨0, 0, 0⟩) ∧
  (∀ (s t : State) (v : Word) (bs : List Byte),
    hostWriteThreshold v s = .next t ∨ hostPresentInput bs s = .next t → t.is = s.is)

/-- R27: `W_OVW` is sticky, and a step sets it only for a `DATA` or `FILL.S` block with bytes whose
first match covers its whole range. -/
def Obligations.OverwriteWarningOnlyFromCoveredWrite : Prop :=
  ∀ s t : State, step s = .next t →
    (s.wOvw = true → t.wOvw = true) ∧
    (s.wOvw = false → t.wOvw = true →
      ∃ (hd : Header) (pre post : List Chunk) (c : Chunk),
        (decode s.fillThreshold (s.inp.drop s.ipos) = .ok (.data hd) ∨
         decode s.fillThreshold (s.inp.drop s.ipos) = .ok (.fillS hd)) ∧
        hd.count ≠ 0 ∧ s.cs = pre ++ c :: post ∧ FirstMatch hd pre c ∧
        hd.addr.toNat + hd.count.toNat ≤ c.addr.toNat + c.length.toNat)

/-- R27: nothing in the engine reads `W_OVW`: with another value of it every step gives the same
state but for `W_OVW`, so the same output. -/
def Obligations.NothingReadsTheOverwriteWarning : Prop :=
  ∀ (s t : State) (w : Bool), step s = .next t →
    ∃ w' : Bool, step { s with wOvw := w } = .next { t with wOvw := w' }

/-- R10: `H` is written only by `DECODE`, with all 16 bytes at once, and keeps the last header read,
also through the flushes of a step (R13). -/
def Obligations.HeaderRegisterHoldsTheLastHeader : Prop :=
  ∀ s t : State, step s = .next t →
    (∀ (B : Bytes16) (rest : List Byte), s.halted = false → s.inp.drop s.ipos = B.toList ++ rest →
      t.h = B) ∧
    ((s.halted = true ∨ s.inp.length - s.ipos < 16) → t.h = s.h)

/-- R20, R40, R233: a step never writes `IN`, the threshold or the parameters; a block that takes no
error advances `ipos` by exactly 16 and the payload length of its class (R76); `ipos` never
decreases. -/
def Obligations.InputPositionAdvancesByTheBlock : Prop :=
  ∀ s t : State, step s = .next t →
    t.inp = s.inp ∧ t.fillThreshold = s.fillThreshold ∧
    t.maxChunks = s.maxChunks ∧ t.maxDataBytes = s.maxDataBytes ∧ t.posWidth = s.posWidth ∧
    s.ipos ≤ t.ipos ∧
    (∀ i, s.halted = false → decode s.fillThreshold (s.inp.drop s.ipos) = .ok i → t.pstate ≠ .error →
      t.ipos = s.ipos + (if i = .eos then 0 else 16 + i.payloadLength))

/-- R20, R21, R33, R1 (`POS_W`): the position registers that the host reads hold the positions
themselves where the width is unbounded, and count modulo `2^w` where it is `w`: `ipos` advances by 16
and the payload length of the block, `opos` by the bytes appended. That the stream itself goes on
where the register wraps is the model's reading (log entry 7). -/
def Obligations.PositionRegistersCountModuloTheirWidth : Prop :=
  (∀ s : State, s.posWidth = none → s.status.ipos = s.ipos ∧ s.status.opos = s.opos) ∧
  (∀ (s t : State) (w : Nat), s.posWidth = some w → step s = .next t →
    t.posWidth = some w ∧ t.status.ipos < 2 ^ w ∧ t.status.opos < 2 ^ w ∧
    (∀ i, s.halted = false → decode s.fillThreshold (s.inp.drop s.ipos) = .ok i → t.pstate ≠ .error →
      t.status.ipos = (s.status.ipos + (if i = .eos then 0 else 16 + i.payloadLength)) % 2 ^ w) ∧
    (∃ bs : List Byte, t.out = s.out ++ bs ∧ t.status.opos = (s.status.opos + bs.length) % 2 ^ w))

/-- R42, R196, R197: `OUT` is append-only, `opos` counts its bytes, and a step that takes a fatal
error appends nothing. -/
def Obligations.OutputIsAppendOnly : Prop :=
  ∀ s t : State, step s = .next t →
    ∃ bs : List Byte, t.out = s.out ++ bs ∧ t.opos = s.opos + bs.length ∧
      (t.pstate = .error → bs = [])

/-! ### The invariant and the output -/

/-- Every step keeps the invariant of the machine (R19, R21, R24, R32, R142, R156). -/
def Obligations.StepKeepsTheInvariant : Prop :=
  ∀ s t : State, Inv s → step s = .next t → Inv t

/-- R220, R221, R222: the invariant and the output shape hold in every state a run starts from: after a
reset, of whatever state, which keeps `IN` and the parameters, and after the host's writes of the
threshold and of `IN`, which keep both. When the host may write is seen as log entry 8 says. -/
def Obligations.ResetMeetsAndHostKeepsTheInvariant : Prop :=
  (Inv State.reset ∧ OutputShape State.reset) ∧
  (∀ s : State, Inv (hostReset s) ∧ OutputShape (hostReset s)) ∧
  (∀ (s t : State) (v : Word) (bs : List Byte),
    hostWriteThreshold v s = .next t ∨ hostPresentInput bs s = .next t →
    (Inv s → Inv t) ∧ (OutputShape s → OutputShape t))

/-- R180: in every step from a state that meets the invariant, `OUT` stays a sequence of images, each
a sizing header and at least one chunk, closed by a terminator exactly in `Done`. -/
def Obligations.StepKeepsTheOutputShape : Prop :=
  ∀ s t : State, Inv s → OutputShape s → step s = .next t → OutputShape t

/-- R181: an engine that reads what an engine wrote in a successful run never takes a checksum or a
truncation error, whatever its threshold and its store. A capacity error stays possible. -/
def Obligations.OwnOutputReadsWithoutChecksumOrTruncationError : Prop :=
  ∀ (s : State) (ims : List Image) (st : ImageSettings),
    (∀ im ∈ ims, im.wf = true) → s.halted = false → s.err = .none →
    s.inp.drop s.ipos = ims.flatMap Image.bytes ++ termBytes st →
    ∀ (k : Nat) (t : State), core.run k s = .next t →
      t.err ≠ .checksumError ∧ t.err ≠ .truncationError

/-! ### Reset and the host -/

/-- R220, R221, R31: reset puts the state at its listed values from any state, and does not alter
`IN`. `H`, `E` and `XACC` have no listed value and are not named. -/
def Obligations.ResetGivesTheListedValues : Prop :=
  ∀ s : State,
    (hostReset s).pstate = .awaitingFirst ∧ (hostReset s).cs = [] ∧ (hostReset s).err = .none ∧
    (hostReset s).wOvw = false ∧ (hostReset s).is = ⟨0, 0, 0⟩ ∧ (hostReset s).fillThreshold = 256 ∧
    (hostReset s).ipos = 0 ∧ (hostReset s).opos = 0 ∧ (hostReset s).out = [] ∧
    (hostReset s).inp = s.inp

/-- R28, R233: after reset the host may write any threshold, and one step closes the window: a write
after it is the undefined use that the model stops on (log entry 8). -/
def Obligations.ThresholdWindowClosesWithAStep : Prop :=
  (∀ (s : State) (v : Word),
    hostWriteThreshold v (hostReset s) = .next { hostReset s with fillThreshold := v }) ∧
  (∀ (s t : State) (v : Word), step s = .next t →
    hostWriteThreshold v t = .fault .thresholdWrittenDuringRun)

/-! ### What the blocks do -/

/-- R114: `FIRST` with an empty store captures the settings and starts streaming, and nothing else
changes; with chunks in the store it first writes them out with the OLD settings. -/
def Obligations.FirstCapturesTheSettings : Prop :=
  ∀ (hd : Header) (s : State),
    (s.cs = [] → exec (.first hd) s =
      .next { s with is := ⟨hd.sig, hd.bcode, hd.addr⟩, pstate := .streaming }) ∧
    (s.cs ≠ [] → Memory.wf s.cs = true → ∃ (e : Bytes16) (x : Byte), exec (.first hd) s =
      .next { s with e := e, xacc := x, cs := [],
                     out := s.out ++ (Image.mk s.is s.cs).bytes,
                     opos := s.opos + (Image.mk s.is s.cs).bytes.length,
                     is := ⟨hd.sig, hd.bcode, hd.addr⟩, pstate := .streaming })

/-- R115, R111: `FINAL` and `EOS` write the pending chunks, if any, and the terminator with the
settings last captured, and end the run; no field of the Final block is used and no input byte is
consumed. -/
def Obligations.FinalAndEosEndTheRun : Prop :=
  ∀ (hd : Header) (s : State), Memory.wf s.cs = true →
    ∃ (e : Bytes16) (x : Byte) (bs : List Byte),
      bs = (if s.cs = [] then [] else (Image.mk s.is s.cs).bytes) ++ termBytes s.is ∧
      exec (.final hd) s = .next { s with e := e, xacc := x, cs := [], out := s.out ++ bs,
                                          opos := s.opos + bs.length, pstate := .done } ∧
      exec .eos s = .next { s with e := e, xacc := x, cs := [], out := s.out ++ bs,
                                   opos := s.opos + bs.length, pstate := .done }

/-- R116: `IGNORE` skips its `byteCount` bytes, whatever its other fields, and changes nothing else;
where they are not all there it takes `TruncationError`. -/
def Obligations.IgnoreSkipsItsPayload : Prop :=
  ∀ (hd : Header) (s : State),
    (PayloadPresent hd s →
      exec (.ignore hd) s = .next { s with ipos := s.ipos + hd.count.toNat }) ∧
    (¬ PayloadPresent hd s →
      exec (.ignore hd) s = .next { s with err := .truncationError, pstate := .error })

/-- R113: a class with a payload that is not all there takes `TruncationError` before any effect. -/
def Obligations.MissingPayloadHasNoEffect : Prop :=
  ∀ (hd : Header) (s : State), ¬ PayloadPresent hd s →
    ∀ i ∈ [Instr.ignore hd, Instr.data hd, Instr.xdata hd, Instr.xdataInit hd],
      exec i s = .next { s with err := .truncationError, pstate := .error }

/-- R117, R120, R147, R153: a `DATA` block with no match, and every `XDATA` block, appends a record
with its address, argument, flags and length that holds its payload; the payload is consumed and
nothing else changes. -/
def Obligations.LiteralBlockAppendsAChunk : Prop :=
  ∀ (threshold : Word) (hd : Header) (s : State) (i : Instr),
    (i = .data hd ∧ NoMatch hd s.cs) ∨ i = .xdata hd →
    wellFormed threshold i = true → PayloadPresent hd s →
    RoomForChunk s → RoomForBytes hd.count.toNat s →
    ∃ k : Nat, exec i s = .next { s with
      ipos := s.ipos + hd.count.toNat
      cs := s.cs ++ [⟨hd.addr, hd.arg, hd.flags, hd.count, some (payloadBytes hd s)⟩]
      freeCount := k }

/-- R120, R122: an `XDATA.INIT` block appends its record and then writes out the whole store, itself
last, with settings and parser state unchanged. -/
def Obligations.XdataInitAppendsAndFlushes : Prop :=
  ∀ (threshold : Word) (hd : Header) (s : State),
    wellFormed threshold (.xdataInit hd) = true → Memory.wf s.cs = true → PayloadPresent hd s →
    RoomForChunk s → RoomForBytes hd.count.toNat s →
    ∃ (e : Bytes16) (x : Byte) (k : Nat) (bs : List Byte),
      bs = (Image.mk s.is (s.cs ++
        [⟨hd.addr, hd.arg, hd.flags, hd.count, some (payloadBytes hd s)⟩])).bytes ∧
      exec (.xdataInit hd) s = .next { s with
        e := e, xacc := x, cs := [], out := s.out ++ bs, opos := s.opos + bs.length
        ipos := s.ipos + hd.count.toNat, freeCount := k }

/-- R153, R149: a `DATA` block that passes the end of its first match: the covered head of the payload
is dropped, the overhanging tail appended, and the chunk then ends where the block ends. -/
def Obligations.DataExtendsTheFirstMatch : Prop :=
  ∀ (threshold : Word) (hd : Header) (s : State) (pre post : List Chunk) (c : Chunk) (d : List Byte),
    wellFormed threshold (.data hd) = true → PayloadPresent hd s →
    s.cs = pre ++ c :: post → FirstMatch hd pre c → HasBuffer c d →
    c.addr.toNat + c.length.toNat < hd.addr.toNat + hd.count.toNat →
    hd.addr.toNat + hd.count.toNat < c.addr.toNat + 2 ^ 32 →
    RoomForBytes (hd.addr.toNat + hd.count.toNat - (c.addr.toNat + c.length.toNat)) s →
    ∃ k : Nat, exec (.data hd) s = .next { s with
      ipos := s.ipos + hd.count.toNat
      cs := pre ++
        { c with
          length := BitVec.ofNat 32 (hd.addr.toNat + hd.count.toNat - c.addr.toNat)
          data := some (d ++
            (payloadBytes hd s).drop (c.addr.toNat + c.length.toNat - hd.addr.toNat)) } :: post
      freeCount := k }

/-- R155, R193: a block that ends inside its first match is discarded: a literal payload is consumed,
the store is unchanged, and the warning is set exactly when there was a byte to discard. -/
def Obligations.CoveredWriteIsDiscarded : Prop :=
  ∀ (hd : Header) (s : State) (pre post : List Chunk) (c : Chunk),
    s.cs = pre ++ c :: post → FirstMatch hd pre c →
    hd.addr.toNat + hd.count.toNat ≤ c.addr.toNat + c.length.toNat →
    (wellFormed s.fillThreshold (.data hd) = true → PayloadPresent hd s →
      exec (.data hd) s = .next { s with
        ipos := s.ipos + hd.count.toNat
        wOvw := if hd.count = 0 then s.wOvw else true }) ∧
    (wellFormed s.fillThreshold (.fillS hd) = true →
      exec (.fillS hd) s = .next { s with wOvw := if hd.count = 0 then s.wOvw else true })

/-- R118, R147, R151, R152: a small Fill-only block with no match appends a LITERAL record (flags
`0x000`, the fill word kept as its argument) of `byteCount` bytes: the fill word repeated, then the
`byteCount mod 4` bytes that nothing writes, of any value. No input is consumed. -/
def Obligations.SmallFillUnrollsIntoANewChunk : Prop :=
  ∀ (hd : Header) (s : State),
    wellFormed s.fillThreshold (.fillS hd) = true → NoMatch hd s.cs →
    RoomForChunk s → RoomForBytes hd.count.toNat s →
    ∃ (k : Nat) (unwritten : List Byte), unwritten.length = hd.count.toNat % 4 ∧
      exec (.fillS hd) s = .next { s with
        cs := s.cs ++ [⟨hd.addr, hd.arg, 0x000, hd.count,
          some (fillRun hd (hd.count.toNat / 4) ++ unwritten)⟩]
        freeCount := k }

/-- R151, R152, R149: a small Fill-only block that passes the end of its first match writes the fill
word from its own start, over bytes the chunk had; of the last `byteCount mod 4` bytes of its range
those the chunk had stay and `min(r, overhang)` new ones are of any value. -/
def Obligations.SmallFillExtendsTheFirstMatch : Prop :=
  ∀ (hd : Header) (s : State) (pre post : List Chunk) (c : Chunk) (d : List Byte) (off n : Nat),
    wellFormed s.fillThreshold (.fillS hd) = true →
    s.cs = pre ++ c :: post → FirstMatch hd pre c → HasBuffer c d →
    off = hd.addr.toNat - c.addr.toNat →
    n = hd.addr.toNat + hd.count.toNat - (c.addr.toNat + c.length.toNat) → 0 < n →
    hd.addr.toNat + hd.count.toNat < c.addr.toNat + 2 ^ 32 → RoomForBytes n s →
    ∃ (k : Nat) (unwritten : List Byte), unwritten.length = min (hd.count.toNat % 4) n ∧
      exec (.fillS hd) s = .next { s with
        cs := pre ++
          { c with
            length := BitVec.ofNat 32 (hd.addr.toNat + hd.count.toNat - c.addr.toNat)
            data := some (d.take off ++ fillRun hd (hd.count.toNat / 4) ++
              d.drop (off + 4 * (hd.count.toNat / 4)) ++ unwritten) } :: post
        freeCount := k }

/-- R119, R121, R154: a large Fill-only block and an `XFILL` block always append a Fill record with
the header's fields and no buffer, and change nothing else; without room for the record they take
`CapacityError`. -/
def Obligations.LargeFillAndXfillAppendAFillChunk : Prop :=
  ∀ (hd : Header) (s : State) (i : Instr),
    i = .fillL hd ∨ i = .xfill hd → wellFormed s.fillThreshold i = true →
    (RoomForChunk s →
      exec i s = .next { s with cs := s.cs ++ [⟨hd.addr, hd.arg, hd.flags, hd.count, none⟩] }) ∧
    (¬ RoomForChunk s →
      ∃ cs, exec i s = .next { s with cs := cs, err := .capacityError, pstate := .error })

/-- R121, R122: an `XFILL.INIT` block appends its Fill record and then writes out the whole store. -/
def Obligations.XfillInitAppendsAndFlushes : Prop :=
  ∀ (hd : Header) (s : State),
    wellFormed s.fillThreshold (.xfillInit hd) = true → Memory.wf s.cs = true → RoomForChunk s →
    ∃ (e : Bytes16) (x : Byte) (bs : List Byte),
      bs = (Image.mk s.is (s.cs ++ [⟨hd.addr, hd.arg, hd.flags, hd.count, none⟩])).bytes ∧
      exec (.xfillInit hd) s = .next { s with
        e := e, xacc := x, cs := [], out := s.out ++ bs, opos := s.opos + bs.length }

/-- R156, R192, R196: `CapacityError`, code 3, in its three cases: no room for a record; no room for
the bytes a materialized target grows by; a length that would reach `2^32`. `OUT` and every register
but `ERR` and `PSTATE` keep their values; what the store then holds is left open (R197). -/
def Obligations.MergeWithoutRoomTakesCapacityError : Prop :=
  ErrCode.capacityError.code = 3 ∧
  (∀ (hd : Header) (s : State) (i : Instr) (n : Nat),
    i ∈ [Instr.data hd, .fillS hd, .fillL hd, .xdata hd, .xfill hd, .xdataInit hd, .xfillInit hd] →
    wellFormed s.fillThreshold i = true → i.payloadLength ≤ s.inp.length - s.ipos →
    ¬ MayMerge s.fillThreshold hd ∨ NoMatch hd s.cs →
    s.maxChunks = some n → n ≤ s.cs.length →
    ∃ cs, exec i s = .next { s with cs := cs, err := .capacityError, pstate := .error }) ∧
  (∀ (hd : Header) (s : State) (i : Instr) (m : Nat),
    i ∈ [Instr.data hd, .fillS hd, .xdata hd, .xdataInit hd] →
    wellFormed s.fillThreshold i = true → i.payloadLength ≤ s.inp.length - s.ipos →
    ¬ MayMerge s.fillThreshold hd ∨ NoMatch hd s.cs → 0 < hd.count.toNat →
    s.maxDataBytes = some m → m < dataBytes s.cs + hd.count.toNat →
    ∃ cs, exec i s = .next { s with cs := cs, err := .capacityError, pstate := .error }) ∧
  (∀ (hd : Header) (s : State) (i : Instr) (pre post : List Chunk) (c : Chunk),
    i ∈ [Instr.data hd, .fillS hd] →
    wellFormed s.fillThreshold i = true → i.payloadLength ≤ s.inp.length - s.ipos →
    s.cs = pre ++ c :: post → FirstMatch hd pre c →
    c.addr.toNat + c.length.toNat < hd.addr.toNat + hd.count.toNat →
    c.addr.toNat + 2 ^ 32 ≤ hd.addr.toNat + hd.count.toNat ∨
      (∃ m, s.maxDataBytes = some m ∧
        m < dataBytes s.cs + (hd.addr.toNat + hd.count.toNat - (c.addr.toNat + c.length.toNat))) →
    ∃ cs, exec i s = .next { s with cs := cs, err := .capacityError, pstate := .error })

/-! ### What the serializer does -/

/-- R172, R173, R175, R176, R179: the multiplexer. Each emitted form writes one valid header with the
selected fields, through `E` and `XACC`; `EMIT.CHUNK` then writes the whole buffer of a
materialized chunk; nothing else changes. -/
def Obligations.EmittedFormsSelectTheirFields : Prop :=
  (∀ s : State, ∃ B : Bytes16, xor16 B = 0 ∧
    unpack B = ⟨s.is.bcode, 0x500, s.is.sig, s.is.entry, 0, imageSize s.cs⟩ ∧
    exec .emitSizing s =
      .next { s with e := B, xacc := B.b2, out := s.out ++ B.toList, opos := s.opos + 16 }) ∧
  (∀ (s : State) (c : Chunk), c.wf = true → ∃ B : Bytes16, xor16 B = 0 ∧
    unpack B = ⟨s.is.bcode, c.flags, s.is.sig, c.addr, c.length, c.arg⟩ ∧
    exec (.emitChunk c) s =
      .next { s with e := B, xacc := B.b2, out := s.out ++ B.toList ++ c.data.getD [],
                     opos := s.opos + 16 + (c.data.getD []).length }) ∧
  (∀ s : State, ∃ B : Bytes16, xor16 B = 0 ∧
    unpack B = ⟨s.is.bcode, 0x800, s.is.sig, s.is.entry, 0, 0⟩ ∧
    exec .emitTerm s =
      .next { s with e := B, xacc := B.b2, out := s.out ++ B.toList, opos := s.opos + 16 })

/-- R170, R171, R177: a flush writes the image of the store, empties it, and leaves every register but
`E` and `XACC`; the sizing header's argument is the number of bytes written mod `2^32`. -/
def Obligations.FlushWritesTheImageAndEmptiesTheStore : Prop :=
  ∀ s : State, Memory.wf s.cs = true →
    (∃ (e : Bytes16) (x : Byte), flush s = { s with
      e := e, xacc := x, cs := []
      out := s.out ++ (Image.mk s.is s.cs).bytes
      opos := s.opos + (Image.mk s.is s.cs).bytes.length }) ∧
    (imageSize s.cs).toNat = (Image.mk s.is s.cs).bytes.length % 2 ^ 32

/-! ### What the merger leaves alone -/

/-- R16, R147, R158 items 2, 3, 5 and 6: a data block without `INIT` that takes no error appends one
record at the tail if it may not merge or nothing matches it; else the only record that can change is
its first match, whose address, argument and flags stay and which then ends at the later of its old
end and the block's. Every other record is unchanged and in its place. -/
def Obligations.MergeTouchesAtMostOneRecord : Prop :=
  ∀ (hd : Header) (s t : State) (i : Instr),
    i ∈ [Instr.data hd, .fillS hd, .fillL hd, .xdata hd, .xfill hd] →
    wellFormed s.fillThreshold i = true → exec i s = .next t → t.pstate ≠ .error →
    ((¬ MayMerge s.fillThreshold hd ∨ NoMatch hd s.cs) ∧
      ∃ c, t.cs = s.cs ++ [c] ∧ c.addr = hd.addr ∧ c.arg = hd.arg ∧ c.length = hd.count ∧
        c.flags = if hd.flags = 0x010 ∧ hd.count.toNat ≤ s.fillThreshold.toNat then 0x000 else hd.flags) ∨
    (MayMerge s.fillThreshold hd ∧ ∃ pre c c' post,
      s.cs = pre ++ c :: post ∧ FirstMatch hd pre c ∧ t.cs = pre ++ c' :: post ∧
      c'.addr = c.addr ∧ c'.arg = c.arg ∧ c'.flags = c.flags ∧ c.length.toNat ≤ c'.length.toNat ∧
      c'.addr.toNat + c'.length.toNat =
        max (c.addr.toNat + c.length.toNat) (hd.addr.toNat + hd.count.toNat))

/-- R158 item 9: a literal block never changes a byte that a chunk already holds: every buffer keeps
its bytes as the beginning of what it holds afterwards. -/
def Obligations.LiteralBlockKeepsStoredBytes : Prop :=
  ∀ (hd : Header) (s t : State) (i : Instr),
    i = .data hd ∨ i = .xdata hd → wellFormed s.fillThreshold i = true → Memory.wf s.cs = true →
    exec i s = .next t → t.pstate ≠ .error →
    ∀ (j : Nat) (c : Chunk) (d : List Byte), s.cs[j]? = some c → c.data = some d →
      ∃ (c' : Chunk) (d' : List Byte), t.cs[j]? = some c' ∧ c'.data = some d' ∧ d <+: d'

/-- R145: no block ever writes to a Fill chunk: a data block without `INIT` that takes no error leaves
every Fill record of the store exactly as it was. -/
def Obligations.FillChunksAreSegregated : Prop :=
  ∀ (hd : Header) (s t : State) (i : Instr),
    i ∈ [Instr.data hd, .fillS hd, .fillL hd, .xdata hd, .xfill hd] →
    wellFormed s.fillThreshold i = true → exec i s = .next t → t.pstate ≠ .error →
    ∀ (j : Nat) (c : Chunk), s.cs[j]? = some c → c.flags &&& 0x010 ≠ 0 → t.cs[j]? = some c

/-- R80: the fields that each class ignores do not reach its effect. -/
def Obligations.IgnoredFieldsHaveNoEffect : Prop :=
  ∀ (hd hd' : Header) (s : State),
    (hd'.sig = hd.sig → hd'.bcode = hd.bcode → hd'.addr = hd.addr →
      exec (.first hd') s = exec (.first hd) s) ∧
    (exec (.final hd') s = exec (.final hd) s) ∧
    (hd'.count = hd.count → exec (.ignore hd') s = exec (.ignore hd) s) ∧
    (hd'.flags = hd.flags → hd'.addr = hd.addr → hd'.count = hd.count → hd'.arg = hd.arg →
      exec (.data hd') s = exec (.data hd) s ∧ exec (.fillS hd') s = exec (.fillS hd) s ∧
      exec (.fillL hd') s = exec (.fillL hd) s ∧ exec (.xdata hd') s = exec (.xdata hd) s ∧
      exec (.xdataInit hd') s = exec (.xdataInit hd) s ∧ exec (.xfill hd') s = exec (.xfill hd) s ∧
      exec (.xfillInit hd') s = exec (.xfillInit hd) s)
end

