-- ==== Sys2Proof/Laws/Codec.lean ====
section
/-! SUPPORT. Laws of the header codec and of the decoder: pack and unpack, the checksum, and what
`classify` and `decode` can answer. -/

namespace Sys2Proof

@[simp] theorem Bytes16.length_toList (B : Bytes16) : B.toList.length = 16 := rfl

@[simp] theorem Bytes16.ofPrefix_toList_append (B : Bytes16) (r : List Byte) :
    Bytes16.ofPrefix (B.toList ++ r) = some B := rfl

@[simp] theorem Bytes16.ofPrefix_toList (B : Bytes16) : Bytes16.ofPrefix B.toList = some B := rfl

@[simp] theorem Bytes16.drop_toList_append (B : Bytes16) (r : List Byte) :
    (B.toList ++ r).drop 16 = r := rfl

@[simp] theorem Bytes16.take_toList_append (B : Bytes16) (r : List Byte) :
    (B.toList ++ r).take 16 = B.toList := rfl

/-- Everything `ofPrefix` can answer: the first sixteen bytes, exactly when there are sixteen. -/
theorem Bytes16.ofPrefix_cases (bs : List Byte) :
    (bs.length < 16 ∧ Bytes16.ofPrefix bs = none) ∨
    ∃ B r, bs = B.toList ++ r ∧ Bytes16.ofPrefix bs = some B := by
  match bs with
  | [] | [_] | [_, _] | [_, _, _] | [_, _, _, _] | [_, _, _, _, _] | [_, _, _, _, _, _]
  | [_, _, _, _, _, _, _] | [_, _, _, _, _, _, _, _] | [_, _, _, _, _, _, _, _, _]
  | [_, _, _, _, _, _, _, _, _, _] | [_, _, _, _, _, _, _, _, _, _, _]
  | [_, _, _, _, _, _, _, _, _, _, _, _] | [_, _, _, _, _, _, _, _, _, _, _, _, _]
  | [_, _, _, _, _, _, _, _, _, _, _, _, _, _] | [_, _, _, _, _, _, _, _, _, _, _, _, _, _, _] =>
    exact .inl ⟨by simp, rfl⟩
  | b0 :: b1 :: b2 :: b3 :: b4 :: b5 :: b6 :: b7 :: b8 :: b9 :: b10 :: b11 :: b12 :: b13 :: b14 :: b15 :: r =>
    exact .inr ⟨⟨b0, b1, b2, b3, b4, b5, b6, b7, b8, b9, b10, b11, b12, b13, b14, b15⟩, r, rfl, rfl⟩

theorem Bytes16.ofPrefix_eq_some {bs : List Byte} {B : Bytes16} (h : Bytes16.ofPrefix bs = some B) :
    ∃ r, bs = B.toList ++ r := by
  rcases Bytes16.ofPrefix_cases bs with ⟨-, hn⟩ | ⟨B', r, rfl, hs⟩
  · simp [hn] at h
  · obtain rfl : B' = B := by simpa using h
    exact ⟨r, rfl⟩

theorem Bytes16.ofPrefix_eq_none {bs : List Byte} : Bytes16.ofPrefix bs = none ↔ bs.length < 16 := by
  rcases Bytes16.ofPrefix_cases bs with ⟨hl, hn⟩ | ⟨B, r, rfl, -⟩
  · simp [hl, hn]
  · simp

/-! ### Field assembly -/

@[simp] theorem le32_wordByte (v : Word) :
    le32 (wordByte v 0) (wordByte v 1) (wordByte v 2) (wordByte v 3) = v := by
  refine BitVec.eq_of_getLsbD_eq fun i hi => ?_
  simp only [le32, wordByte, BitVec.getLsbD_append, BitVec.getLsbD_extractLsb']
  grind

@[simp] theorem wordByte_le32_zero (a b c d : Byte) : wordByte (le32 a b c d) 0 = a := by
  refine BitVec.eq_of_getLsbD_eq fun i hi => ?_
  simp only [le32, wordByte, BitVec.getLsbD_append, BitVec.getLsbD_extractLsb']
  grind

@[simp] theorem wordByte_le32_one (a b c d : Byte) : wordByte (le32 a b c d) 1 = b := by
  refine BitVec.eq_of_getLsbD_eq fun i hi => ?_
  simp only [le32, wordByte, BitVec.getLsbD_append, BitVec.getLsbD_extractLsb']
  grind

@[simp] theorem wordByte_le32_two (a b c d : Byte) : wordByte (le32 a b c d) 2 = c := by
  refine BitVec.eq_of_getLsbD_eq fun i hi => ?_
  simp only [le32, wordByte, BitVec.getLsbD_append, BitVec.getLsbD_extractLsb']
  grind

@[simp] theorem wordByte_le32_three (a b c d : Byte) : wordByte (le32 a b c d) 3 = d := by
  refine BitVec.eq_of_getLsbD_eq fun i hi => ?_
  simp only [le32, wordByte, BitVec.getLsbD_append, BitVec.getLsbD_extractLsb']
  grind

theorem pack_hw0 (h : Header) (k : Byte) : (pack h k).hw0 = h.flags ++ h.bcode := by
  refine BitVec.eq_of_getLsbD_eq fun i hi => ?_
  simp only [Bytes16.hw0, pack, BitVec.getLsbD_append, BitVec.getLsbD_extractLsb']
  grind

/-- `unpack` undoes `pack` (R62), whatever the checksum byte. -/
@[simp] theorem unpack_pack (h : Header) (k : Byte) : unpack (pack h k) = h := by
  have hb : (pack h k).hw0.extractLsb' 0 4 = h.bcode := by
    rw [pack_hw0]
    refine BitVec.eq_of_getLsbD_eq fun i hi => ?_
    simp only [BitVec.getLsbD_append, BitVec.getLsbD_extractLsb']
    grind
  have hf : (pack h k).hw0.extractLsb' 4 12 = h.flags := by
    rw [pack_hw0]
    refine BitVec.eq_of_getLsbD_eq fun i hi => ?_
    simp only [BitVec.getLsbD_append, BitVec.getLsbD_extractLsb']
    grind
  cases h
  simp only [unpack, hb, hf, Header.mk.injEq, true_and]
  exact ⟨rfl, le32_wordByte _, le32_wordByte _, le32_wordByte _⟩

/-- `pack` undoes `unpack` (R62), given the checksum byte. -/
@[simp] theorem pack_unpack (B : Bytes16) : pack (unpack B) B.b2 = B := by
  have h0 : (B.hw0.extractLsb' 4 12 ++ B.hw0.extractLsb' 0 4 : BitVec 16).extractLsb' 0 8 = B.b0 := by
    refine BitVec.eq_of_getLsbD_eq fun i hi => ?_
    simp only [Bytes16.hw0, BitVec.getLsbD_append, BitVec.getLsbD_extractLsb']
    grind
  have h1 : (B.hw0.extractLsb' 4 12 ++ B.hw0.extractLsb' 0 4 : BitVec 16).extractLsb' 8 8 = B.b1 := by
    refine BitVec.eq_of_getLsbD_eq fun i hi => ?_
    simp only [Bytes16.hw0, BitVec.getLsbD_append, BitVec.getLsbD_extractLsb']
    grind
  cases B
  simp only [pack, unpack] at *
  simp [h0, h1]

@[simp] theorem unpack_with_b2 (B : Bytes16) (k : Byte) : unpack { B with b2 := k } = unpack B := rfl

@[simp] theorem unpack_seal (B : Bytes16) : unpack (sealHeader B) = unpack B := rfl

@[simp] theorem unpack_encodeHeader (h : Header) : unpack (encodeHeader h) = h := by
  simp [encodeHeader]

/-! ### The checksum -/

/-- The checksum byte enters `XOR16` as any other (R91). -/
theorem xor16_with_b2 (B : Bytes16) (k : Byte) : xor16 { B with b2 := k } = k ^^^ genChecksum B := by
  simp only [xor16, genChecksum]
  ac_rfl

theorem xor16_eq (B : Bytes16) : xor16 B = B.b2 ^^^ genChecksum B := xor16_with_b2 B B.b2

@[simp] theorem genChecksum_with_b2 (B : Bytes16) (k : Byte) :
    genChecksum { B with b2 := k } = genChecksum B := rfl

/-- A sealed header is valid (R95). -/
@[simp] theorem xor16_sealHeader (B : Bytes16) : xor16 (sealHeader B) = 0 := by
  rw [sealHeader, xor16_with_b2, BitVec.xor_self]; rfl

@[simp] theorem xor16_encodeHeader (h : Header) : xor16 (encodeHeader h) = 0 := xor16_sealHeader _

/-- A valid header holds the generated checksum (R91). -/
theorem b2_of_valid {B : Bytes16} (hv : xor16 B = 0) : B.b2 = genChecksum B := by
  rw [xor16_eq] at hv
  have := congrArg (· ^^^ genChecksum B) hv
  simpa [BitVec.xor_assoc] using this

theorem sealHeader_of_valid {B : Bytes16} (hv : xor16 B = 0) : sealHeader B = B := by
  rw [sealHeader, ← b2_of_valid hv]

/-! ### Classification -/

/-- Everything `classify` can answer, with the condition of each class (R65, R66). -/
theorem classify_cases (thr : Word) (h : Header) :
    (classify thr h = .first h ∧ h.flags &&& 0x400 ≠ 0) ∨
    (classify thr h = .final h ∧ h.flags &&& 0x400 = 0 ∧ h.flags &&& 0x800 ≠ 0) ∨
    (classify thr h = .ignore h ∧ h.flags &&& 0x400 = 0 ∧ h.flags &&& 0x800 = 0 ∧
      h.flags &&& 0x100 ≠ 0) ∨
    (h.flags &&& 0x400 = 0 ∧ h.flags &&& 0x800 = 0 ∧ h.flags &&& 0x100 = 0 ∧
      ((classify thr h = .data h ∧ h.flags = 0) ∨
       (classify thr h = .fillS h ∧ h.flags = 0x010 ∧ h.count.toNat ≤ thr.toNat) ∨
       (classify thr h = .fillL h ∧ h.flags = 0x010 ∧ thr.toNat < h.count.toNat) ∨
       (h.flags ≠ 0 ∧ h.flags ≠ 0x010 ∧
        ((classify thr h = .xdataInit h ∧ h.flags &&& 0x010 = 0 ∧ h.flags &&& 0x080 ≠ 0) ∨
         (classify thr h = .xdata h ∧ h.flags &&& 0x010 = 0 ∧ h.flags &&& 0x080 = 0) ∨
         (classify thr h = .xfillInit h ∧ h.flags &&& 0x010 ≠ 0 ∧ h.flags &&& 0x080 ≠ 0) ∨
         (classify thr h = .xfill h ∧ h.flags &&& 0x010 ≠ 0 ∧ h.flags &&& 0x080 = 0))))) := by
  unfold classify
  split_ifs <;> simp_all

@[simp] theorem classify_header (thr : Word) (h : Header) : (classify thr h).header? = some h := by
  unfold classify
  split_ifs <;> rfl

@[simp] theorem classify_isInput (thr : Word) (h : Header) : (classify thr h).isInput = true := by
  unfold classify
  split_ifs <;> rfl

/-- The highest priority (R65): `FIRST` wins, whatever else is set. -/
theorem classify_of_first {thr : Word} {h : Header} (hf : h.flags &&& 0x400 ≠ 0) :
    classify thr h = .first h := by
  simp only [classify, if_pos hf]

/-- The emitted forms with no operand and `EOS` carry no condition. -/
theorem wellFormed_noOperand (thr : Word) :
    wellFormed thr .emitSizing = true ∧ wellFormed thr .emitTerm = true ∧ wellFormed thr .eos = true := by
  simp only [wellFormed, and_self]

theorem classify_ne_eos (thr : Word) (h : Header) : classify thr h ≠ .eos := by
  unfold classify
  split_ifs <;> simp

theorem and_or_eq_zero (f a b : Flags) : f &&& (a ||| b) = 0 ↔ f &&& a = 0 ∧ f &&& b = 0 := by
  rw [BitVec.and_or_distrib_left]; exact BitVec.or_eq_zero_iff

/-- The masks of R63 taken apart: `0xC00` is `FIRST|FINAL`. -/
theorem flags_C00 (f : Flags) : f &&& 0xC00 = 0 ↔ f &&& 0x400 = 0 ∧ f &&& 0x800 = 0 :=
  and_or_eq_zero f 0x400 0x800

/-- `0xD00` is `FIRST|FINAL|IGNORE`. -/
theorem flags_D00 (f : Flags) :
    f &&& 0xD00 = 0 ↔ f &&& 0x400 = 0 ∧ f &&& 0x800 = 0 ∧ f &&& 0x100 = 0 := by
  rw [← and_or_eq_zero f 0x800 0x100, ← and_or_eq_zero f 0x400]; exact Iff.rfl

theorem eq_and_of_and_compl_eq_zero (f m : Flags) (h : f &&& ~~~m = 0) : f = f &&& m := by
  have : f &&& (m ||| ~~~m) = f := by
    simp only [BitVec.or_not_self]
    exact BitVec.and_allOnes
  rw [BitVec.and_or_distrib_left, h] at this
  simpa using this.symm

/-- Flags with no bit other than `FILL` are `0x000` or `0x010` (R143). -/
theorem flags_FEF (f : Flags) : f &&& 0xFEF = 0 ↔ f = 0 ∨ f = 0x010 := by
  constructor
  · intro h
    have h1 : f = f &&& 0x010 := eq_and_of_and_compl_eq_zero f 0x010 h
    have h2 := BitVec.and_twoPow f 4
    rw [show BitVec.twoPow 12 4 = (0x010 : Flags) from rfl] at h2
    rw [h2] at h1
    split at h1
    · exact .inr h1
    · exact .inl h1
  · rintro (rfl | rfl) <;> rfl

/-- Data flags without `INIT` have an unnamed bit exactly when they are neither `0x000` nor `0x010`. -/
theorem flags_26F (f : Flags) (h : f &&& 0xD00 = 0) (h' : f &&& 0x080 = 0) :
    f &&& 0x26F ≠ 0 ↔ f ≠ 0 ∧ f ≠ 0x010 := by
  rw [← not_or, not_iff_not, ← flags_FEF]
  rw [show (0xFEF : Flags) = 0xD00 ||| (0x080 ||| 0x26F) from rfl, and_or_eq_zero, and_or_eq_zero]
  simp only [h, h', true_and]

/-- What the four non-mergeable classes share: the priority tests and the two exact ones fail. -/
theorem nonMergeable_flags (f : Flags) (h : f &&& 0xD00 = 0) (h' : f &&& 0x080 ≠ 0 ∨ f &&& 0x26F ≠ 0) :
    f &&& 0x400 = 0 ∧ f &&& 0x800 = 0 ∧ f &&& 0x100 = 0 ∧ f ≠ 0 ∧ f ≠ 0x010 := by
  obtain ⟨h1, h2, h3⟩ := (flags_D00 f).1 h
  refine ⟨h1, h2, h3, ?_, ?_⟩ <;> rintro rfl <;> exact absurd h' (by decide)

/-- What a header is classified as is well-formed (R65, R66). -/
theorem classify_wf (thr : Word) (h : Header) : wellFormed thr (classify thr h) = true := by
  rcases classify_cases thr h with ⟨he, h1⟩ | ⟨he, h1, h2⟩ | ⟨he, h1, h2, h3⟩ | ⟨h1, h2, h3, hr⟩
  · rw [he]; simp_all [wellFormed]
  · rw [he]; simp_all [wellFormed]
  · rw [he]; have := (flags_C00 h.flags).2 ⟨h1, h2⟩; simp_all [wellFormed]
  · have hD := (flags_D00 h.flags).2 ⟨h1, h2, h3⟩
    rcases hr with ⟨he, h4⟩ | ⟨he, h4, h5⟩ | ⟨he, h4, h5⟩ | ⟨h6, h7, ⟨he, h4, h5⟩ | ⟨he, h4, h5⟩ | ⟨he, h4, h5⟩ | ⟨he, h4, h5⟩⟩ <;> rw [he]
    · simp_all [wellFormed]
    · simp_all [wellFormed]
    · simp_all [wellFormed]
    · simp_all [wellFormed]
    · have := (flags_26F h.flags hD h5).2 ⟨h6, h7⟩
      simp_all [wellFormed]
    · simp_all [wellFormed]
    · have := (flags_26F h.flags hD h5).2 ⟨h6, h7⟩
      simp_all [wellFormed]

/-- A header read from the input decodes to its class exactly when its XOR is zero (R78, R92). -/
theorem decode_toList_append (thr : Word) (B : Bytes16) (r : List Byte) :
    decode thr (B.toList ++ r) =
      if xor16 B = 0 then .ok (classify thr (unpack B)) else .error .checksum := rfl

/-- Everything `decode` can answer. -/
theorem decode_cases (thr : Word) (bs : List Byte) :
    (bs = [] ∧ decode thr bs = .ok .eos) ∨
    (0 < bs.length ∧ bs.length < 16 ∧ decode thr bs = .error .truncatedHeader) ∨
    (∃ B r, bs = B.toList ++ r ∧ xor16 B ≠ 0 ∧ decode thr bs = .error .checksum) ∨
    (∃ B r, bs = B.toList ++ r ∧ xor16 B = 0 ∧ decode thr bs = .ok (classify thr (unpack B))) := by
  cases bs with
  | nil => exact .inl ⟨rfl, rfl⟩
  | cons b bs =>
    rcases Bytes16.ofPrefix_cases (b :: bs) with ⟨hl, hn⟩ | ⟨B, r, he, -⟩
    · exact .inr (.inl ⟨by simp, hl, by simp [decode, hn]⟩)
    · by_cases hx : xor16 B = 0
      · exact .inr (.inr (.inr ⟨B, r, he, hx, by rw [he, decode_toList_append, if_pos hx]⟩))
      · exact .inr (.inr (.inl ⟨B, r, he, hx, by rw [he, decode_toList_append, if_neg hx]⟩))

/-! ### The emitted forms -/

theorem length_encodeEmitted_sizing (st : ImageSettings) (total : Word) :
    (encodeEmitted st total .emitSizing).length = 16 := rfl

theorem length_encodeEmitted_term (st : ImageSettings) (total : Word) :
    (encodeEmitted st total .emitTerm).length = 16 := rfl

end Sys2Proof
end

