-- ==== Sys2Proof/Laws/State.lean ====
section
/-! SUPPORT. For each named update of State, one lemma per field, so that no later proof unfolds a
record update. -/

namespace Sys2Proof.Machine

@[simp] theorem raise_h (x : FatalError) (s : State) : (raise x s).h = s.h := rfl
@[simp] theorem raise_e (x : FatalError) (s : State) : (raise x s).e = s.e := rfl
@[simp] theorem raise_xacc (x : FatalError) (s : State) : (raise x s).xacc = s.xacc := rfl
@[simp] theorem raise_ipos (x : FatalError) (s : State) : (raise x s).ipos = s.ipos := rfl
@[simp] theorem raise_opos (x : FatalError) (s : State) : (raise x s).opos = s.opos := rfl
@[simp] theorem raise_pstate (x : FatalError) (s : State) : (raise x s).pstate = .error := rfl
@[simp] theorem raise_err (x : FatalError) (s : State) : (raise x s).err = x.code := rfl
@[simp] theorem raise_wOvw (x : FatalError) (s : State) : (raise x s).wOvw = s.wOvw := rfl
@[simp] theorem raise_fillThreshold (x : FatalError) (s : State) : (raise x s).fillThreshold = s.fillThreshold := rfl
@[simp] theorem raise_is (x : FatalError) (s : State) : (raise x s).is = s.is := rfl
@[simp] theorem raise_cs (x : FatalError) (s : State) : (raise x s).cs = s.cs := rfl
@[simp] theorem raise_inp (x : FatalError) (s : State) : (raise x s).inp = s.inp := rfl
@[simp] theorem raise_out (x : FatalError) (s : State) : (raise x s).out = s.out := rfl
@[simp] theorem raise_maxChunks (x : FatalError) (s : State) : (raise x s).maxChunks = s.maxChunks := rfl
@[simp] theorem raise_maxDataBytes (x : FatalError) (s : State) : (raise x s).maxDataBytes = s.maxDataBytes := rfl
@[simp] theorem raise_posWidth (x : FatalError) (s : State) : (raise x s).posWidth = s.posWidth := rfl
@[simp] theorem raise_freeCount (x : FatalError) (s : State) : (raise x s).freeCount = s.freeCount := rfl

@[simp] theorem inSkip_h (n : Nat) (s : State) : (inSkip n s).h = s.h := rfl
@[simp] theorem inSkip_e (n : Nat) (s : State) : (inSkip n s).e = s.e := rfl
@[simp] theorem inSkip_xacc (n : Nat) (s : State) : (inSkip n s).xacc = s.xacc := rfl
@[simp] theorem inSkip_ipos (n : Nat) (s : State) : (inSkip n s).ipos = s.ipos + n := rfl
@[simp] theorem inSkip_opos (n : Nat) (s : State) : (inSkip n s).opos = s.opos := rfl
@[simp] theorem inSkip_pstate (n : Nat) (s : State) : (inSkip n s).pstate = s.pstate := rfl
@[simp] theorem inSkip_err (n : Nat) (s : State) : (inSkip n s).err = s.err := rfl
@[simp] theorem inSkip_wOvw (n : Nat) (s : State) : (inSkip n s).wOvw = s.wOvw := rfl
@[simp] theorem inSkip_fillThreshold (n : Nat) (s : State) : (inSkip n s).fillThreshold = s.fillThreshold := rfl
@[simp] theorem inSkip_is (n : Nat) (s : State) : (inSkip n s).is = s.is := rfl
@[simp] theorem inSkip_cs (n : Nat) (s : State) : (inSkip n s).cs = s.cs := rfl
@[simp] theorem inSkip_inp (n : Nat) (s : State) : (inSkip n s).inp = s.inp := rfl
@[simp] theorem inSkip_out (n : Nat) (s : State) : (inSkip n s).out = s.out := rfl
@[simp] theorem inSkip_maxChunks (n : Nat) (s : State) : (inSkip n s).maxChunks = s.maxChunks := rfl
@[simp] theorem inSkip_maxDataBytes (n : Nat) (s : State) : (inSkip n s).maxDataBytes = s.maxDataBytes := rfl
@[simp] theorem inSkip_posWidth (n : Nat) (s : State) : (inSkip n s).posWidth = s.posWidth := rfl
@[simp] theorem inSkip_freeCount (n : Nat) (s : State) : (inSkip n s).freeCount = s.freeCount := rfl

@[simp] theorem outWrite_h (bs : List Byte) (s : State) : (outWrite bs s).h = s.h := rfl
@[simp] theorem outWrite_e (bs : List Byte) (s : State) : (outWrite bs s).e = s.e := rfl
@[simp] theorem outWrite_xacc (bs : List Byte) (s : State) : (outWrite bs s).xacc = s.xacc := rfl
@[simp] theorem outWrite_ipos (bs : List Byte) (s : State) : (outWrite bs s).ipos = s.ipos := rfl
@[simp] theorem outWrite_opos (bs : List Byte) (s : State) : (outWrite bs s).opos = s.opos + bs.length := rfl
@[simp] theorem outWrite_pstate (bs : List Byte) (s : State) : (outWrite bs s).pstate = s.pstate := rfl
@[simp] theorem outWrite_err (bs : List Byte) (s : State) : (outWrite bs s).err = s.err := rfl
@[simp] theorem outWrite_wOvw (bs : List Byte) (s : State) : (outWrite bs s).wOvw = s.wOvw := rfl
@[simp] theorem outWrite_fillThreshold (bs : List Byte) (s : State) : (outWrite bs s).fillThreshold = s.fillThreshold := rfl
@[simp] theorem outWrite_is (bs : List Byte) (s : State) : (outWrite bs s).is = s.is := rfl
@[simp] theorem outWrite_cs (bs : List Byte) (s : State) : (outWrite bs s).cs = s.cs := rfl
@[simp] theorem outWrite_inp (bs : List Byte) (s : State) : (outWrite bs s).inp = s.inp := rfl
@[simp] theorem outWrite_out (bs : List Byte) (s : State) : (outWrite bs s).out = s.out ++ bs := rfl
@[simp] theorem outWrite_maxChunks (bs : List Byte) (s : State) : (outWrite bs s).maxChunks = s.maxChunks := rfl
@[simp] theorem outWrite_maxDataBytes (bs : List Byte) (s : State) : (outWrite bs s).maxDataBytes = s.maxDataBytes := rfl
@[simp] theorem outWrite_posWidth (bs : List Byte) (s : State) : (outWrite bs s).posWidth = s.posWidth := rfl
@[simp] theorem outWrite_freeCount (bs : List Byte) (s : State) : (outWrite bs s).freeCount = s.freeCount := rfl

@[simp] theorem emitHeader_h (hd : Header) (s : State) : (emitHeader hd s).h = s.h := rfl
@[simp] theorem emitHeader_e (hd : Header) (s : State) : (emitHeader hd s).e = encodeHeader hd := rfl
@[simp] theorem emitHeader_xacc (hd : Header) (s : State) : (emitHeader hd s).xacc = genChecksum (pack hd 0) := rfl
@[simp] theorem emitHeader_ipos (hd : Header) (s : State) : (emitHeader hd s).ipos = s.ipos := rfl
@[simp] theorem emitHeader_opos (hd : Header) (s : State) : (emitHeader hd s).opos = s.opos + 16 := rfl
@[simp] theorem emitHeader_pstate (hd : Header) (s : State) : (emitHeader hd s).pstate = s.pstate := rfl
@[simp] theorem emitHeader_err (hd : Header) (s : State) : (emitHeader hd s).err = s.err := rfl
@[simp] theorem emitHeader_wOvw (hd : Header) (s : State) : (emitHeader hd s).wOvw = s.wOvw := rfl
@[simp] theorem emitHeader_fillThreshold (hd : Header) (s : State) : (emitHeader hd s).fillThreshold = s.fillThreshold := rfl
@[simp] theorem emitHeader_is (hd : Header) (s : State) : (emitHeader hd s).is = s.is := rfl
@[simp] theorem emitHeader_cs (hd : Header) (s : State) : (emitHeader hd s).cs = s.cs := rfl
@[simp] theorem emitHeader_inp (hd : Header) (s : State) : (emitHeader hd s).inp = s.inp := rfl
@[simp] theorem emitHeader_out (hd : Header) (s : State) : (emitHeader hd s).out = s.out ++ (encodeHeader hd).toList := rfl
@[simp] theorem emitHeader_maxChunks (hd : Header) (s : State) : (emitHeader hd s).maxChunks = s.maxChunks := rfl
@[simp] theorem emitHeader_maxDataBytes (hd : Header) (s : State) : (emitHeader hd s).maxDataBytes = s.maxDataBytes := rfl
@[simp] theorem emitHeader_posWidth (hd : Header) (s : State) : (emitHeader hd s).posWidth = s.posWidth := rfl
@[simp] theorem emitHeader_freeCount (hd : Header) (s : State) : (emitHeader hd s).freeCount = s.freeCount := rfl

/-! ### The position registers (R20, R21)

A register that is advanced and wrapped at each operation is the wrapped view of the position. -/

theorem posWrap_none (p : Nat) : posWrap none p = p := rfl

theorem posWrap_lt (w p : Nat) : posWrap (some w) p < 2 ^ w := Nat.mod_lt _ (Nat.two_pow_pos w)

@[simp] theorem posWrap_posWrap_add (width : Option Nat) (p n : Nat) :
    posWrap width (posWrap width p + n) = posWrap width (p + n) := by
  cases width <;> simp [posWrap]

theorem iposRegister_inSkip (n : Nat) (s : State) :
    (inSkip n s).iposRegister = posWrap s.posWidth (s.iposRegister + n) := by
  simp [State.iposRegister]

theorem oposRegister_outWrite (bs : List Byte) (s : State) :
    (outWrite bs s).oposRegister = posWrap s.posWidth (s.oposRegister + bs.length) := by
  simp [State.oposRegister]

theorem iposRegister_latchHeader {s : State} {B : Bytes16} (h : Bytes16.ofPrefix (unread s) = some B) :
    (latchHeader s).iposRegister = posWrap s.posWidth (s.iposRegister + Config.headerSize) := by
  simp [State.iposRegister, latchHeader, h]

end Sys2Proof.Machine
end

