-- ==== Sys2Proof/Laws/Store.lean ====
section
/-! SUPPORT. Laws of the chunk buffers and of the merger: what the scan finds, what `merge` can
answer, that it changes only the store, the input position, the warning and the draw count, and
that it keeps the store's canonical form. -/

namespace Sys2Proof.Machine

/-! ### Buffers -/

@[simp] theorem length_freeBytes (ctr n : Nat) : (freeBytes ctr n).length = n := by simp [freeBytes]

theorem length_writeAt {d bs : List Byte} {off : Nat} (h : off + bs.length ≤ d.length) :
    (writeAt d off bs).length = d.length := by
  simp only [writeAt, List.length_append, List.length_take, List.length_drop]
  omega

/-- A write replaces the bytes from its offset on, and leaves those before and after it. -/
theorem writeAt_end (d x bs : List Byte) (h : bs.length = x.length) :
    writeAt (d ++ x) d.length bs = d ++ bs := by
  simp [writeAt, h]

@[simp] theorem bufGrow_buf (c : Chunk) (n ctr : Nat) :
    (bufGrow c n ctr).buf = c.buf ++ freeBytes ctr n := rfl
@[simp] theorem bufWrite_buf (c : Chunk) (off : Nat) (bs : List Byte) :
    (bufWrite c off bs).buf = writeAt c.buf off bs := rfl
@[simp] theorem lengthen_buf (c : Chunk) (n : Nat) : (lengthen c n).buf = c.buf := rfl

@[simp] theorem bufGrow_addr (c : Chunk) (n ctr : Nat) : (bufGrow c n ctr).addr = c.addr := rfl
@[simp] theorem bufGrow_arg (c : Chunk) (n ctr : Nat) : (bufGrow c n ctr).arg = c.arg := rfl
@[simp] theorem bufGrow_flags (c : Chunk) (n ctr : Nat) : (bufGrow c n ctr).flags = c.flags := rfl
@[simp] theorem bufGrow_length (c : Chunk) (n ctr : Nat) : (bufGrow c n ctr).length = c.length := rfl
@[simp] theorem bufWrite_addr (c : Chunk) (o : Nat) (b : List Byte) : (bufWrite c o b).addr = c.addr := rfl
@[simp] theorem bufWrite_arg (c : Chunk) (o : Nat) (b : List Byte) : (bufWrite c o b).arg = c.arg := rfl
@[simp] theorem bufWrite_flags (c : Chunk) (o : Nat) (b : List Byte) : (bufWrite c o b).flags = c.flags := rfl
@[simp] theorem bufWrite_length (c : Chunk) (o : Nat) (b : List Byte) :
    (bufWrite c o b).length = c.length := rfl
@[simp] theorem lengthen_addr (c : Chunk) (n : Nat) : (lengthen c n).addr = c.addr := rfl
@[simp] theorem lengthen_arg (c : Chunk) (n : Nat) : (lengthen c n).arg = c.arg := rfl
@[simp] theorem lengthen_flags (c : Chunk) (n : Nat) : (lengthen c n).flags = c.flags := rfl
@[simp] theorem lengthen_data (c : Chunk) (n : Nat) : (lengthen c n).data = c.data := rfl

theorem lengthen_length {c : Chunk} {n : Nat} (h : lengthFull c n = false) :
    (lengthen c n).length.toNat = c.length.toNat + n := by
  have h' : ¬ 2 ^ 32 ≤ c.length.toNat + n := of_decide_eq_false h
  simp only [lengthen, BitVec.toNat_add, BitVec.toNat_ofNat]
  omega

/-- The unrolling loop as one write: the fill word repeated (R151). -/
theorem unroll_eq (w : List Byte) (hw : w.length = 4) (q off : Nat) (c : Chunk) (hq : 0 < q)
    (h : off + 4 * q ≤ c.buf.length) :
    unroll w q off c = bufWrite c off (List.replicate q w).flatten := by
  induction q generalizing off c with
  | zero => omega
  | succ q ih =>
    simp only [unroll, Config.fillWord]
    rcases Nat.eq_zero_or_pos q with rfl | hpos
    · simp [unroll, List.replicate]
    · have hl : (bufWrite c off w).buf.length = c.buf.length := by
        rw [bufWrite_buf, length_writeAt]; omega
      rw [ih (off + 4) (bufWrite c off w) hpos (by rw [hl]; omega)]
      simp only [bufWrite, List.replicate_succ, List.flatten_cons, Chunk.buf, Option.getD_some,
        Chunk.mk.injEq, true_and, Option.some.injEq]
      generalize hF : (List.replicate q w).flatten = F
      generalize hd : c.data.getD [] = d
      have hFl : F.length = 4 * q := by rw [← hF]; simp [hw]; ring
      have hdl : off + 4 * (q + 1) ≤ d.length := by rw [← hd]; exact h
      have ht : (d.take off).length = off := by simp; omega
      apply List.ext_getElem
      · simp [writeAt, hw, hFl]; omega
      · intro i h1 h2
        simp only [writeAt, List.getElem_append, List.getElem_take, List.getElem_drop,
          List.length_append, List.length_take, List.length_drop, hw, hFl]
        grind

@[simp] theorem unroll_addr (w : List Byte) (q off : Nat) (c : Chunk) : (unroll w q off c).addr = c.addr := by
  induction q generalizing off c <;> simp_all [unroll]
@[simp] theorem unroll_arg (w : List Byte) (q off : Nat) (c : Chunk) : (unroll w q off c).arg = c.arg := by
  induction q generalizing off c <;> simp_all [unroll]
@[simp] theorem unroll_flags (w : List Byte) (q off : Nat) (c : Chunk) : (unroll w q off c).flags = c.flags := by
  induction q generalizing off c <;> simp_all [unroll]
@[simp] theorem unroll_length (w : List Byte) (q off : Nat) (c : Chunk) :
    (unroll w q off c).length = c.length := by
  induction q generalizing off c <;> simp_all [unroll]

/-! ### The scan -/

theorem isFill_eq_false_iff (c : Chunk) : c.isFill = false ↔ c.flags &&& 0x010 = 0 := by
  simp [Chunk.isFill]

theorem isFill_eq_true_iff (c : Chunk) : c.isFill = true ↔ c.flags &&& 0x010 ≠ 0 := by
  simp [Chunk.isFill]

/-- The comparator and the Fill test together are the spec's match (R145, R146). -/
theorem eligible_iff (hd : Header) (c : Chunk) : eligible hd c = true ↔ Matches hd c := by
  simp only [eligible, inRange, Bool.and_eq_true, Bool.not_eq_true', isFill_eq_false_iff,
    decide_eq_true_eq]
  exact Iff.rfl

theorem mayMerge_iff (thr : Word) (hd : Header) :
    (hd.mergeable && !hd.largeFill thr) = true ↔ MayMerge thr hd := by
  simp [Header.mergeable, Header.largeFill, MayMerge, imp_iff_not_or]

/-- Everything the scan can answer: the first match, or that there is none. -/
theorem scan_cases (hd : Header) (cs : List Chunk) :
    (∃ t, scan hd cs = some t ∧ cs = t.pre ++ t.chunk :: t.post ∧ FirstMatch hd t.pre t.chunk) ∨
    (scan hd cs = none ∧ NoMatch hd cs) := by
  induction cs with
  | nil => exact .inr ⟨rfl, by simp [NoMatch]⟩
  | cons c cs ih =>
    by_cases he : eligible hd c
    · exact .inl ⟨⟨[], c, cs⟩, by simp [scan, he], rfl, by simp [NoMatch], (eligible_iff hd c).1 he⟩
    · have hn : ¬ Matches hd c := fun hm => he ((eligible_iff hd c).2 hm)
      rcases ih with ⟨t, ht, hcs, hpre, hm⟩ | ⟨h0, hno⟩
      · refine .inl ⟨⟨c :: t.pre, t.chunk, t.post⟩, by simp [scan, he, ht], by simp [← hcs], ?_, hm⟩
        exact List.forall_mem_cons.2 ⟨hn, hpre⟩
      · exact .inr ⟨by simp [scan, he, h0], List.forall_mem_cons.2 ⟨hn, hno⟩⟩

theorem scan_firstMatch {hd : Header} {pre post : List Chunk} {c : Chunk} (h : FirstMatch hd pre c) :
    scan hd (pre ++ c :: post) = some ⟨pre, c, post⟩ := by
  obtain ⟨hpre, hm⟩ := h
  induction pre with
  | nil => simp [scan, (eligible_iff hd c).2 hm]
  | cons p pre ih =>
    have hp : ¬ eligible hd p = true := fun he => hpre p (by simp) ((eligible_iff hd p).1 he)
    simp [scan, hp, ih fun x hx => hpre x (by simp [hx])]

theorem scan_noMatch {hd : Header} {cs : List Chunk} (h : NoMatch hd cs) : scan hd cs = none := by
  rcases scan_cases hd cs with ⟨t, -, hcs, -, hm⟩ | ⟨h0, -⟩
  · exact absurd hm (h _ (by rw [hcs]; simp))
  · exact h0

/-! ### Find or create -/

/-- The condition under which a block gets a new record (R147). -/
def NeedsNew (thr : Word) (hd : Header) (cs : List Chunk) : Prop := ¬ MayMerge thr hd ∨ NoMatch hd cs

theorem mergeTarget_of_needsNew {hd : Header} {s : State} (h : NeedsNew s.fillThreshold hd s.cs) :
    mergeTarget hd s = createTarget hd s := by
  have : findTarget hd s = none := by
    unfold findTarget
    split_ifs with hm
    · exact scan_noMatch (h.resolve_left (not_not.2 ((mayMerge_iff _ _).1 hm)))
    · rfl
  simp [mergeTarget, this]

theorem mergeTarget_of_firstMatch {hd : Header} {s : State} {pre post : List Chunk} {c : Chunk}
    (hm : MayMerge s.fillThreshold hd) (hcs : s.cs = pre ++ c :: post) (hf : FirstMatch hd pre c) :
    mergeTarget hd s = .ok ⟨pre, c, post⟩ := by
  simp [mergeTarget, findTarget, (mayMerge_iff _ _).2 hm, hcs, scan_firstMatch hf]

/-- Everything `mergeTarget` can answer: the first match, a new record at the tail, or that the store
is full. -/
theorem mergeTarget_cases (hd : Header) (s : State) :
    (∃ t, mergeTarget hd s = .ok t ∧ MayMerge s.fillThreshold hd ∧
      s.cs = t.pre ++ t.chunk :: t.post ∧ FirstMatch hd t.pre t.chunk) ∨
    (NeedsNew s.fillThreshold hd s.cs ∧
      ((storeFull s = true ∧ mergeTarget hd s = .error .capacity) ∨
       (storeFull s = false ∧ mergeTarget hd s = .ok ⟨s.cs, newChunk s.fillThreshold hd, []⟩))) := by
  by_cases hm : MayMerge s.fillThreshold hd
  · rcases scan_cases hd s.cs with ⟨t, -, hcs, hf⟩ | ⟨-, hno⟩
    · exact .inl ⟨t, mergeTarget_of_firstMatch hm hcs hf, hm, hcs, hf⟩
    · refine .inr ⟨.inr hno, ?_⟩
      rw [mergeTarget_of_needsNew (.inr hno), createTarget]
      cases storeFull s <;> simp
  · refine .inr ⟨.inl hm, ?_⟩
    rw [mergeTarget_of_needsNew (.inl hm), createTarget]
    cases storeFull s <;> simp

/-- In both cases the block starts no later than the target ends (R148). -/
theorem mergeTarget_start {hd : Header} {s : State} {t : Target} (h : mergeTarget hd s = .ok t) :
    t.chunk.addr.toNat ≤ hd.addr.toNat ∧ hd.addr.toNat ≤ t.chunk.endAddr := by
  rcases mergeTarget_cases hd s with ⟨t', ht, -, -, -, hm⟩ | ⟨-, ⟨-, he⟩ | ⟨-, ht⟩⟩
  · obtain rfl : t' = t := by simpa [ht] using h
    exact ⟨hm.2.1, hm.2.2⟩
  · simp [he] at h
  · obtain rfl : _ = t := by simpa [ht] using h
    simp [newChunk, Chunk.endAddr]

/-! ### Extend or discard -/

/-- Everything the write phase can answer. -/
theorem writeTarget_cases (hd : Header) (t : Target) (s : State) :
    (hd.endAddr ≤ t.chunk.endAddr ∧ writeTarget hd t s = .ok (coveredWrite hd t s)) ∨
    ∃ n, 0 < n ∧ hd.endAddr = t.chunk.endAddr + n ∧
      ((lengthFull t.chunk n = true ∧ writeTarget hd t s = .error .capacity) ∨
       (lengthFull t.chunk n = false ∧
        ((hd.isFill = true ∧ t.chunk.isFill = true ∧ writeTarget hd t s = .ok (claimOnly t n s)) ∨
         ((hd.isFill = false ∨ t.chunk.isFill = false) ∧
          ((dataFull n s = true ∧ writeTarget hd t s = .error .capacity) ∨
           (dataFull n s = false ∧
            ((hd.isFill = true ∧ writeTarget hd t s = .ok (unrollInto hd t n s)) ∨
             (hd.isFill = false ∧ writeTarget hd t s = .ok (literalInto hd t n s)))))))) ) := by
  by_cases ho : 0 < overhang hd t.chunk
  · obtain ⟨n, hn⟩ : ∃ n : Nat, overhang hd t.chunk = n := ⟨_, (Int.toNat_of_nonneg ho.le).symm⟩
    refine .inr ⟨n, by omega, by simp only [overhang] at hn; omega, ?_⟩
    have hw : writeTarget hd t s = extend hd t n s := by simp [writeTarget, hn]; omega
    rw [hw, extend]
    cases lengthFull t.chunk n <;> cases hd.isFill <;> cases t.chunk.isFill <;> cases dataFull n s <;> simp
  · exact .inl ⟨by simp only [overhang] at ho; omega, by simp [writeTarget, ho]⟩

theorem merge_ok {hd : Header} {s u : State} (h : merge hd s = .ok u) :
    ∃ t, mergeTarget hd s = .ok t ∧ writeTarget hd t s = .ok u := by
  unfold merge at h
  split at h
  · cases h
  · exact ⟨_, ‹_›, h⟩

/-- The merger raises no error but `CapacityError` (R157). -/
theorem merge_error {hd : Header} {s : State} {x : FatalError} (h : merge hd s = .error x) : x = .capacity := by
  unfold merge at h
  rcases mergeTarget_cases hd s with ⟨t, ht, -⟩ | ⟨-, ⟨-, ht⟩ | ⟨-, ht⟩⟩
  all_goals rw [ht] at h
  · rcases writeTarget_cases hd t s with ⟨-, hw⟩ | ⟨n, -, -, ⟨-, hw⟩ | ⟨-, ⟨-, -, hw⟩ | ⟨-, ⟨-, hw⟩ | ⟨-, ⟨-, hw⟩ | ⟨-, hw⟩⟩⟩⟩⟩ <;>
      simp_all
  · simp_all
  · rcases writeTarget_cases hd ⟨s.cs, newChunk s.fillThreshold hd, []⟩ s with
      ⟨-, hw⟩ | ⟨n, -, -, ⟨-, hw⟩ | ⟨-, ⟨-, -, hw⟩ | ⟨-, ⟨-, hw⟩ | ⟨-, ⟨-, hw⟩ | ⟨-, hw⟩⟩⟩⟩⟩ <;> simp_all

/-- The states the write phase can end in. -/
theorem writeTarget_ok {hd : Header} {t : Target} {s u : State} (h : writeTarget hd t s = .ok u) :
    (hd.endAddr ≤ t.chunk.endAddr ∧ u = coveredWrite hd t s) ∨
    ∃ n, 0 < n ∧ hd.endAddr = t.chunk.endAddr + n ∧ lengthFull t.chunk n = false ∧
      ((hd.isFill = true ∧ t.chunk.isFill = true ∧ u = claimOnly t n s) ∨
       (hd.isFill = true ∧ t.chunk.isFill = false ∧ dataFull n s = false ∧ u = unrollInto hd t n s) ∨
       (hd.isFill = false ∧ dataFull n s = false ∧ u = literalInto hd t n s)) := by
  rcases writeTarget_cases hd t s with ⟨hc, hw⟩ |
    ⟨n, hn, he, ⟨-, hw⟩ | ⟨hl, ⟨hf, hc, hw⟩ | ⟨ho, ⟨-, hw⟩ | ⟨hdf, ⟨hf, hw⟩ | ⟨hf, hw⟩⟩⟩⟩⟩
  all_goals rw [hw] at h
  all_goals simp only [Except.ok.injEq, reduceCtorEq] at h
  · exact .inl ⟨hc, h.symm⟩
  · exact .inr ⟨n, hn, he, hl, .inl ⟨hf, hc, h.symm⟩⟩
  · exact .inr ⟨n, hn, he, hl, .inr (.inl ⟨hf, ho.resolve_left (by simp [hf]), hdf, h.symm⟩)⟩
  · exact .inr ⟨n, hn, he, hl, .inr (.inr ⟨hf, hdf, h.symm⟩)⟩

/-- The merger's frame (R140): only the store, the input position, the warning and the count of draws
can change. -/
theorem merge_frame {hd : Header} {s u : State} (h : merge hd s = .ok u) :
    u = { s with ipos := u.ipos, cs := u.cs, wOvw := u.wOvw, freeCount := u.freeCount } := by
  obtain ⟨t, -, hw⟩ := merge_ok h
  rcases writeTarget_ok hw with ⟨-, rfl⟩ | ⟨n, -, -, -, ⟨-, -, rfl⟩ | ⟨-, -, -, rfl⟩ | ⟨-, -, rfl⟩⟩
  · unfold coveredWrite; cases hd.isFill <;> rfl
  all_goals rfl

/-- A literal source consumes exactly its `byteCount` bytes, a Fill source none (R158 item 1). -/
theorem merge_ipos {hd : Header} {s u : State} (h : merge hd s = .ok u) :
    u.ipos = s.ipos + if hd.isFill then 0 else hd.count.toNat := by
  obtain ⟨t, ht, hw⟩ := merge_ok h
  have hst := (mergeTarget_start ht).2
  rcases writeTarget_ok hw with ⟨-, rfl⟩ | ⟨n, -, he, -, ⟨hf, -, rfl⟩ | ⟨hf, -, -, rfl⟩ | ⟨hf, -, rfl⟩⟩
  · unfold coveredWrite; cases hd.isFill <;> simp
  · simp [claimOnly, hf]
  · simp [unrollInto, hf]
  · simp only [literalInto, inSkip_ipos, hf, Header.endAddr] at *
    simp only [Bool.false_eq_true, if_false]
    omega

/-- The warning after a merge (R27): set only by a covered write of at least one byte. -/
theorem merge_wOvw {hd : Header} {s u : State} (h : merge hd s = .ok u) :
    u.wOvw = s.wOvw ∨
    (u.wOvw = true ∧ hd.count ≠ 0 ∧ ∃ t, mergeTarget hd s = .ok t ∧ hd.endAddr ≤ t.chunk.endAddr) := by
  obtain ⟨t, ht, hw⟩ := merge_ok h
  rcases writeTarget_ok hw with ⟨hc, rfl⟩ | ⟨n, -, -, -, ⟨-, -, rfl⟩ | ⟨-, -, -, rfl⟩ | ⟨-, -, rfl⟩⟩
  · by_cases h0 : hd.count = 0
    · left; unfold coveredWrite overwriteFlag; simp [h0]
    · exact .inr ⟨by unfold coveredWrite overwriteFlag; simpa using .inr h0, h0, t, ht, hc⟩
  all_goals exact .inl rfl

/-! ### The canonical form -/

/-- A record in canonical form: a Fill record without a buffer, or a buffer of exactly its length. -/
theorem chunk_wf_iff (c : Chunk) : c.wf = true ↔ c.flags &&& 0xD00 = 0 ∧
    ((c.isFill = true ∧ c.data = none) ∨ (c.isFill = false ∧ ∃ d, HasBuffer c d)) := by
  obtain ⟨a, g, f, l, d⟩ := c
  cases d <;> simp [Chunk.wf, Chunk.isFill, HasBuffer]

theorem memory_wf_iff (cs : List Chunk) : Memory.wf cs = true ↔ ∀ c ∈ cs, c.wf = true := by
  simp [Memory.wf]

theorem memory_wf_append (cs ds : List Chunk) :
    Memory.wf (cs ++ ds) = true ↔ Memory.wf cs = true ∧ Memory.wf ds = true := by
  simp [Memory.wf]

theorem memory_wf_cons (c : Chunk) (cs : List Chunk) :
    Memory.wf (c :: cs) = true ↔ c.wf = true ∧ Memory.wf cs = true := by
  simp [Memory.wf]

/-! ### New records -/

theorem storedFlags_facts (thr : Word) (hd : Header) (h : hd.flags &&& 0xD00 = 0) :
    hd.storedFlags thr &&& 0xD00 = 0 ∧
    (hd.isFill = false → hd.storedFlags thr &&& 0x010 = 0) := by
  unfold Header.storedFlags
  split_ifs with hs
  · exact ⟨rfl, fun _ => rfl⟩
  · exact ⟨h, fun hf => by simpa [Header.isFill] using hf⟩

@[simp] theorem newChunk_length (thr : Word) (hd : Header) : (newChunk thr hd).length = 0 := rfl
@[simp] theorem newChunk_addr (thr : Word) (hd : Header) : (newChunk thr hd).addr = hd.addr := rfl
@[simp] theorem newChunk_arg (thr : Word) (hd : Header) : (newChunk thr hd).arg = hd.arg := rfl
@[simp] theorem newChunk_flags (thr : Word) (hd : Header) : (newChunk thr hd).flags = hd.storedFlags thr := rfl

@[simp] theorem newChunk_buf (thr : Word) (hd : Header) : (newChunk thr hd).buf = [] := by
  unfold newChunk Chunk.buf
  simp only
  split_ifs <;> rfl

theorem newChunk_wf {thr : Word} {hd : Header} (h : hd.flags &&& 0xD00 = 0) : (newChunk thr hd).wf = true := by
  rw [chunk_wf_iff]
  refine ⟨(storedFlags_facts thr hd h).1, ?_⟩
  by_cases hf : hd.storedFlags thr &&& 0x010 = 0
  · exact .inr ⟨by simpa [Chunk.isFill, newChunk] using hf, [], by simp only [newChunk]; rw [if_pos hf], rfl⟩
  · exact .inl ⟨by simpa [Chunk.isFill, newChunk] using hf, by simp only [newChunk]; rw [if_neg hf]⟩

theorem mergeTarget_wf {hd : Header} {s : State} {t : Target} (h : mergeTarget hd s = .ok t)
    (hd00 : hd.flags &&& 0xD00 = 0) (hwf : Memory.wf s.cs = true) :
    Memory.wf (t.pre ++ t.chunk :: t.post) = true ∧ (hd.isFill = false → t.chunk.isFill = false) := by
  rcases mergeTarget_cases hd s with ⟨t', ht, -, hcs, -, hm⟩ | ⟨-, ⟨-, he⟩ | ⟨-, ht⟩⟩
  · obtain rfl : t' = t := by simpa [ht] using h
    exact ⟨hcs ▸ hwf, fun _ => (isFill_eq_false_iff _).2 hm.1⟩
  · simp [he] at h
  · obtain rfl : _ = t := by simpa [ht] using h
    refine ⟨?_, fun hf => (isFill_eq_false_iff _).2 ((storedFlags_facts _ hd hd00).2 hf)⟩
    rw [memory_wf_append, memory_wf_cons]
    exact ⟨hwf, newChunk_wf hd00, rfl⟩

/-! ### What the write phase leaves in the target -/

theorem length_fillRun (hd : Header) (q : Nat) : (fillRun hd q).length = 4 * q := by
  simp [fillRun, le32bytes]; ring

/-- The buffer after an unroll (R151, R152): the old bytes before the block, the fill words, the old
bytes past them, and at the end the new bytes that nothing has written. -/
theorem unroll_grow_data {hd : Header} {c : Chunk} {d : List Byte} {off n ctr : Nat}
    (hb : c.buf = d) (hoff : off ≤ d.length) (hend : off + hd.count.toNat = d.length + n) :
    ∃ fresh : List Byte, fresh.length = min (hd.count.toNat % 4) n ∧
      (unroll hd.fillBytes (hd.count.toNat / Config.fillWord) off (bufGrow c n ctr)).data =
        some (d.take off ++ fillRun hd (hd.count.toNat / 4) ++ d.drop (off + 4 * (hd.count.toNat / 4)) ++ fresh) := by
  simp only [Config.fillWord]
  generalize hq : hd.count.toNat / 4 = q
  have hr : hd.count.toNat = 4 * q + hd.count.toNat % 4 := by omega
  rcases Nat.eq_zero_or_pos q with rfl | hpos
  · refine ⟨freeBytes ctr n, by rw [length_freeBytes]; omega, ?_⟩
    simp only [unroll, bufGrow, hb, fillRun, List.replicate_zero, List.flatten_nil, List.append_nil,
      Nat.mul_zero, Nat.add_zero, List.take_append_drop]
  · refine ⟨(freeBytes ctr n).drop (off + 4 * q - d.length), by
      rw [List.length_drop, length_freeBytes]; omega, ?_⟩
    rw [unroll_eq _ rfl q off _ hpos (by
      rw [bufGrow_buf, hb, List.length_append, length_freeBytes]; omega)]
    simp only [bufWrite, bufGrow_buf, hb, writeAt, Option.some.injEq]
    rw [show (List.replicate q hd.fillBytes).flatten = fillRun hd q from rfl, length_fillRun, List.take_append_of_le_length hoff, List.drop_append]
    simp only [List.append_assoc]

/-- The payload bytes that a literal extension copies are the tail of the payload (R153). -/
theorem inBytes_tail {hd : Header} {s : State} {n k : Nat} (h : k + n = hd.count.toNat) :
    inBytes n (inSkip k s) = (payloadBytes hd s).drop k := by
  simp only [inBytes, unread, inSkip_inp, inSkip_ipos, payloadBytes]
  rw [List.drop_take, List.drop_drop, ← h, Nat.add_sub_cancel_left]

theorem length_payloadBytes {hd : Header} {s : State} (h : PayloadPresent hd s) :
    (payloadBytes hd s).length = hd.count.toNat := by
  simp only [payloadBytes, List.length_take, List.length_drop]
  exact Nat.min_eq_left h

/-- The buffer after a literal extension (R153). -/
theorem literal_grow_data {c : Chunk} {d bs : List Byte} {n ctr : Nat} (hb : HasBuffer c d)
    (hl : bs.length = n) :
    (bufWrite (bufGrow c n ctr) c.length.toNat bs).data = some (d ++ bs) := by
  have hd : c.buf = d := by simp [Chunk.buf, hb.1]
  simp only [bufWrite, bufGrow_buf, hd, Option.some.injEq, ← hb.2]
  exact writeAt_end d _ bs (by simp [hl])

/-- The merger keeps the store's canonical form (R19 (a), R142). -/
theorem merge_wf {hd : Header} {s u : State} (h : merge hd s = .ok u) (hd00 : hd.flags &&& 0xD00 = 0)
    (hp : hd.isFill = false → PayloadPresent hd s) (hwf : Memory.wf s.cs = true) :
    Memory.wf u.cs = true := by
  obtain ⟨t, ht, hw⟩ := merge_ok h
  obtain ⟨htw, hlit⟩ := mergeTarget_wf ht hd00 hwf
  obtain ⟨hs1, hs2⟩ := mergeTarget_start ht
  have htw' := htw
  rw [memory_wf_append, memory_wf_cons] at htw
  obtain ⟨hpre, hc, hpost⟩ := htw
  have put : ∀ c : Chunk, c.wf = true → Memory.wf (putChunk t c) = true := fun c hc' => by
    rw [putChunk, memory_wf_append, memory_wf_cons]; exact ⟨hpre, hc', hpost⟩
  obtain ⟨hcf, hcd⟩ := (chunk_wf_iff _).1 hc
  rcases writeTarget_ok hw with ⟨-, rfl⟩ | ⟨n, hn, he, hl, ⟨-, hf, rfl⟩ | ⟨hf, hf', -, rfl⟩ | ⟨hf, -, rfl⟩⟩
  · exact htw'
  · refine put _ ((chunk_wf_iff _).2 ⟨hcf, .inl ⟨hf, ?_⟩⟩)
    rcases hcd with ⟨-, hnone⟩ | ⟨hf0, -⟩
    · exact hnone
    · simp [hf] at hf0
  · rcases hcd with ⟨hf1, -⟩ | ⟨-, d, hd1, hd2⟩
    · simp [hf'] at hf1
    · have hb : t.chunk.buf = d := by simp [Chunk.buf, hd1]
      simp only [Header.endAddr, Chunk.endAddr] at he hs2
      obtain ⟨fresh, hfl, hdata⟩ := unroll_grow_data (hd := hd) (c := t.chunk) (ctr := s.freeCount)
        (off := hd.addr.toNat - t.chunk.addr.toNat) (n := n) hb (by omega) (by omega)
      refine put _ ((chunk_wf_iff _).2 ⟨by simpa using hcf, .inr ⟨?_, _, by rw [lengthen_data]; exact hdata, ?_⟩⟩)
      · simpa [Chunk.isFill] using hf'
      · have := lengthen_length hl
        simp only [lengthen, unroll_length, bufGrow_length] at this ⊢
        rw [this]
        simp only [List.length_append, List.length_take, List.length_drop, length_fillRun, hfl]
        omega
  · have hf' := hlit hf
    rcases hcd with ⟨hf1, -⟩ | ⟨-, d, hb⟩
    · simp [hf'] at hf1
    · simp only [Header.endAddr, Chunk.endAddr] at he hs2
      have hk : (hd.count.toNat - n) + n = hd.count.toNat := by omega
      have hlen : (inBytes n (inSkip (hd.count.toNat - n) s)).length = n := by
        rw [inBytes_tail hk, List.length_drop, length_payloadBytes (hp hf)]; omega
      refine put _ ((chunk_wf_iff _).2 ⟨by simpa using hcf, .inr ⟨by simpa [Chunk.isFill] using hf', _,
        by rw [lengthen_data]; exact literal_grow_data hb hlen, ?_⟩⟩)
      have := lengthen_length hl
      simp only [lengthen, bufWrite_length, bufGrow_length] at this ⊢
      rw [this, List.length_append, hlen, hb.2]

/-! ### Capacity (R156) -/

theorem storeFull_eq_false_iff (s : State) : storeFull s = false ↔ RoomForChunk s := by
  unfold storeFull RoomForChunk
  cases s.maxChunks <;> simp

theorem storeFull_of {s : State} {n : Nat} (h : s.maxChunks = some n) (hn : n ≤ s.cs.length) :
    storeFull s = true := by
  simp [storeFull, h, hn]

theorem dataFull_eq_false {n : Nat} {s : State} (hn : 0 < n) : dataFull n s = false ↔ RoomForBytes n s := by
  unfold dataFull RoomForBytes
  cases s.maxDataBytes <;> simp [hn]

theorem dataFull_of {s : State} {n m : Nat} (h : s.maxDataBytes = some m) (hm : m < dataBytes s.cs + n) :
    dataFull n s = true := by
  simp [dataFull, h, hm]

@[simp] theorem dataBytes_append (cs ds : List Chunk) : dataBytes (cs ++ ds) = dataBytes cs + dataBytes ds := by
  simp [dataBytes]

@[simp] theorem dataBytes_cons (c : Chunk) (cs : List Chunk) :
    dataBytes (c :: cs) = c.buf.length + dataBytes cs := by
  simp [dataBytes]

@[simp] theorem dataBytes_nil : dataBytes [] = 0 := rfl

theorem length_unroll_buf (w : List Byte) (hw : w.length = 4) (q off : Nat) (c : Chunk)
    (h : off + 4 * q ≤ c.buf.length) : (unroll w q off c).buf.length = c.buf.length := by
  rcases Nat.eq_zero_or_pos q with rfl | hq
  · rfl
  · rw [unroll_eq w hw q off c hq h, bufWrite_buf, length_writeAt]
    simp [hw]; omega

/-- A merge that takes no error keeps the two capacity bounds. -/
theorem merge_capacity {hd : Header} {s u : State} (h : merge hd s = .ok u)
    (hwf : Memory.wf s.cs = true) (hd00 : hd.flags &&& 0xD00 = 0)
    (hp : hd.isFill = false → PayloadPresent hd s)
    (hc : ∀ n, s.maxChunks = some n → s.cs.length ≤ n)
    (hb : ∀ m, s.maxDataBytes = some m → dataBytes s.cs ≤ m) :
    (∀ n, s.maxChunks = some n → u.cs.length ≤ n) ∧
    (∀ m, s.maxDataBytes = some m → dataBytes u.cs ≤ m) := by
  obtain ⟨t, ht, hw⟩ := merge_ok h
  have base : (∀ n, s.maxChunks = some n → (putChunk t t.chunk).length ≤ n) ∧
      dataBytes (putChunk t t.chunk) = dataBytes s.cs := by
    rcases mergeTarget_cases hd s with ⟨t', ht', -, hcs, -, -⟩ | ⟨-, ⟨-, he⟩ | ⟨hfull, ht'⟩⟩
    · obtain rfl : t' = t := by simpa [ht'] using ht
      rw [putChunk, ← hcs]
      exact ⟨hc, rfl⟩
    · simp [he] at ht
    · obtain rfl : _ = t := by simpa [ht'] using ht
      refine ⟨fun n hn => ?_, by simp [putChunk]⟩
      have := (storeFull_eq_false_iff s).1 hfull n hn
      simp [putChunk]; omega
  have size : ∀ c c' : Chunk, (putChunk t c).length = (putChunk t c').length := by simp [putChunk]
  have bytes : ∀ c : Chunk, dataBytes (putChunk t c) + t.chunk.buf.length =
      dataBytes (putChunk t t.chunk) + c.buf.length := by
    intro c; simp [putChunk]; omega
  obtain ⟨hs1, hs2⟩ := mergeTarget_start ht
  have hbuf : ∀ d, HasBuffer t.chunk d → t.chunk.buf.length = t.chunk.length.toNat := by
    intro d hd'; rw [← hd'.2]; simp [Chunk.buf, hd'.1]
  obtain ⟨htw, hlit⟩ := mergeTarget_wf ht hd00 hwf
  rw [memory_wf_append, memory_wf_cons] at htw
  obtain ⟨-, hcd⟩ := (chunk_wf_iff _).1 htw.2.1
  have room : ∀ n, 0 < n → dataFull n s = false → ∀ c : Chunk, c.buf.length ≤ t.chunk.buf.length + n →
      ∀ m, s.maxDataBytes = some m → dataBytes (putChunk t c) ≤ m := by
    intro n hn hdf c hcl m hm
    have h1 := (dataFull_eq_false hn).1 hdf hn m hm
    have h2 := bytes c
    rw [base.2] at h2
    omega
  rcases writeTarget_ok hw with ⟨-, rfl⟩ | ⟨n, hn, he, hl, ⟨-, hf, rfl⟩ | ⟨hf, hf', hdf, rfl⟩ | ⟨hf, hdf, rfl⟩⟩
  · exact ⟨base.1, fun m hm => by
      change dataBytes (putChunk t t.chunk) ≤ m
      rw [base.2]; exact hb m hm⟩
  · refine ⟨fun k hk => by rw [claimOnly, size _ t.chunk]; exact base.1 k hk, fun m hm => ?_⟩
    have := bytes (lengthen t.chunk n)
    rw [base.2, lengthen_buf] at this
    have := hb m hm
    simp only [claimOnly]
    omega
  · refine ⟨fun k hk => by rw [unrollInto, size _ t.chunk]; exact base.1 k hk, room n hn hdf _ ?_⟩
    rcases hcd with ⟨hf1, -⟩ | ⟨-, d, hbd⟩
    · simp [hf'] at hf1
    · simp only [Header.endAddr, Chunk.endAddr] at he hs2
      have := hbuf d hbd
      rw [lengthen_buf, length_unroll_buf _ rfl _ _ _ (by simp [Config.fillWord]; omega)]
      simp
  · refine ⟨fun k hk => by rw [literalInto, size _ t.chunk]; exact base.1 k hk, room n hn hdf _ ?_⟩
    rcases hcd with ⟨hf1, -⟩ | ⟨-, d, hbd⟩
    · simp [hlit hf] at hf1
    · simp only [Header.endAddr, Chunk.endAddr] at he hs2
      have hk : (hd.count.toNat - n) + n = hd.count.toNat := by omega
      rw [lengthen_buf, bufWrite_buf, length_writeAt]
      · simp
      · rw [inBytes_tail hk, List.length_drop, length_payloadBytes (hp hf)]
        have := hbuf d hbd
        simp; omega

end Sys2Proof.Machine
end

