-- ==== Sys2Proof/Laws/Serializer.lean ====
section
/-! SUPPORT. Laws of the serializer: what an emitted chunk and a flush write, and that a flush writes
as many bytes as its sizing header says. -/

namespace Sys2Proof.Machine

/-- A state in which only the output side has moved on. -/
def Emitted (s t : State) (bs : List Byte) : Prop :=
  ∃ (e : Bytes16) (x : Byte),
    t = { s with e := e, xacc := x, out := s.out ++ bs, opos := s.opos + bs.length }

theorem Emitted.trans {s t u : State} {bs ds : List Byte} (h1 : Emitted s t bs) (h2 : Emitted t u ds) :
    Emitted s u (bs ++ ds) := by
  obtain ⟨e, x, rfl⟩ := h1
  obtain ⟨e', x', rfl⟩ := h2
  exact ⟨e', x', by simp [Nat.add_assoc]⟩

theorem emitHeader_emitted (hd : Header) (s : State) : Emitted s (emitHeader hd s) (encodeHeader hd).toList :=
  ⟨_, _, rfl⟩

theorem outWrite_emitted (bs : List Byte) (s : State) : Emitted s (outWrite bs s) bs := ⟨s.e, s.xacc, rfl⟩

/-- The bytes of a chunk in canonical form: its header, and its buffer if it has one (R175, R176). -/
theorem emitChunk_emitted {c : Chunk} (hc : c.wf = true) (s : State) :
    Emitted s (emitChunk c s) (encodeEmitted s.is 0 (.emitChunk c)) := by
  obtain ⟨-, ⟨hf, hn⟩ | ⟨hf, d, hd, hl⟩⟩ := (chunk_wf_iff c).1 hc
  · simp only [emitChunk, hf, if_true, encodeEmitted, hn, Option.getD_none, List.append_nil]
    exact emitHeader_emitted _ s
  · have hb : bufRead c 0 c.length.toNat = d := by
      simp only [bufRead, Chunk.buf, hd, Option.getD_some, List.drop_zero, ← hl, List.take_length]
    simp only [emitChunk, hf, encodeEmitted, hd, Option.getD_some, hb, Bool.false_eq_true, if_false]
    exact (emitHeader_emitted _ s).trans (outWrite_emitted d _)

theorem emitChunks_emitted {cs : List Chunk} (hc : Memory.wf cs = true) (s : State) :
    Emitted s (emitChunks cs s) (chunkBytes s.is cs) := by
  induction cs generalizing s with
  | nil => exact ⟨s.e, s.xacc, by simp [emitChunks, chunkBytes]⟩
  | cons c cs ih =>
    obtain ⟨h1, h2⟩ := (memory_wf_cons c cs).1 hc
    have e1 := emitChunk_emitted h1 s
    have hi : (emitChunk c s).is = s.is := by obtain ⟨e, x, h⟩ := e1; rw [h]
    have e2 := ih h2 (emitChunk c s)
    rw [hi] at e2
    exact e1.trans e2

/-- `FLUSH` (R170): the image is written, the store is empty, and only `E`, `XACC` and the output have
moved besides. -/
theorem flush_eq {s : State} (h : Memory.wf s.cs = true) : ∃ (e : Bytes16) (x : Byte),
    flush s = { s with
      e := e, xacc := x, cs := []
      out := s.out ++ (Image.mk s.is s.cs).bytes
      opos := s.opos + (Image.mk s.is s.cs).bytes.length } := by
  have e1 : Emitted s (emitSizing s) _ := emitHeader_emitted _ s
  have e2 := emitChunks_emitted h (emitSizing s)
  obtain ⟨e, x, hx⟩ := e1.trans e2
  exact ⟨e, x, by rw [flush, hx]; rfl⟩

theorem flushIfAny_eq {s : State} (h : Memory.wf s.cs = true) : ∃ (e : Bytes16) (x : Byte),
    flushIfAny s = { s with
      e := e, xacc := x, cs := []
      out := s.out ++ (if s.cs = [] then [] else (Image.mk s.is s.cs).bytes)
      opos := s.opos + (if s.cs = [] then [] else (Image.mk s.is s.cs).bytes).length } := by
  unfold flushIfAny
  by_cases hc : s.cs = []
  · refine ⟨s.e, s.xacc, ?_⟩
    simp only [hc, List.isEmpty_nil, if_true, List.append_nil, List.length_nil, Nat.add_zero]
    rw [← hc]
  · obtain ⟨e, x, hx⟩ := flush_eq h
    refine ⟨e, x, ?_⟩
    simp only [List.isEmpty_iff, hc, if_false, hx]

/-! ### What a flush leaves alone, in any state -/

/-- The serializer's frame, with no condition on the store: `E`, `XACC` and the output side. -/
theorem emitChunk_frame (c : Chunk) (s : State) : ∃ bs, Emitted s (emitChunk c s) bs := by
  unfold emitChunk
  split_ifs
  · exact ⟨_, emitHeader_emitted _ s⟩
  · exact ⟨_, (emitHeader_emitted _ s).trans (outWrite_emitted _ _)⟩

theorem emitChunks_frame (cs : List Chunk) (s : State) : ∃ bs, Emitted s (emitChunks cs s) bs := by
  induction cs generalizing s with
  | nil => exact ⟨[], s.e, s.xacc, by simp [emitChunks]⟩
  | cons c cs ih =>
    obtain ⟨bs, h1⟩ := emitChunk_frame c s
    obtain ⟨ds, h2⟩ := ih (emitChunk c s)
    exact ⟨_, h1.trans h2⟩

theorem flush_frame (s : State) : ∃ (e : Bytes16) (x : Byte) (bs : List Byte),
    flush s = { s with e := e, xacc := x, cs := [], out := s.out ++ bs, opos := s.opos + bs.length } := by
  obtain ⟨bs, h⟩ := emitChunks_frame s.cs (emitSizing s)
  obtain ⟨e, x, hx⟩ := (emitHeader_emitted (sizingHeader s.is (imageSize s.cs)) s).trans h
  exact ⟨e, x, _, by rw [flush, hx]⟩

theorem flushIfAny_frame (s : State) : ∃ (e : Bytes16) (x : Byte) (bs : List Byte),
    flushIfAny s = { s with e := e, xacc := x, cs := [], out := s.out ++ bs, opos := s.opos + bs.length } := by
  unfold flushIfAny
  split_ifs with h
  · refine ⟨s.e, s.xacc, [], ?_⟩
    rw [List.isEmpty_iff] at h
    simp only [List.append_nil, List.length_nil, Nat.add_zero, ← h]
  · exact flush_frame s

theorem initFlush_frame (hd : Header) (s : State) : ∃ (e : Bytes16) (x : Byte) (bs : List Byte),
    initFlush hd s = { s with e := e, xacc := x, cs := (initFlush hd s).cs, out := s.out ++ bs,
                              opos := s.opos + bs.length } := by
  unfold initFlush
  split_ifs
  · obtain ⟨e, x, bs, h⟩ := flush_frame s
    exact ⟨e, x, bs, by rw [h]⟩
  · exact ⟨s.e, s.xacc, [], by simp⟩

theorem finishRun_frame (s : State) : ∃ (e : Bytes16) (x : Byte) (bs : List Byte),
    finishRun s = { s with e := e, xacc := x, cs := [], out := s.out ++ bs,
                           opos := s.opos + bs.length, pstate := .done } := by
  obtain ⟨e, x, bs, h⟩ := flushIfAny_frame s
  obtain ⟨e', x', h'⟩ := emitHeader_emitted (termHeader (flushIfAny s).is) (flushIfAny s)
  refine ⟨e', x', bs ++ (encodeHeader (termHeader s.is)).toList, ?_⟩
  rw [finishRun, terminate, h', h]
  simp [Nat.add_assoc]

/-- `finishRun` from a store in canonical form (R111, R115). -/
theorem finishRun_eq {s : State} (h : Memory.wf s.cs = true) : ∃ (e : Bytes16) (x : Byte),
    finishRun s = { s with
      e := e, xacc := x, cs := []
      out := s.out ++ ((if s.cs = [] then [] else (Image.mk s.is s.cs).bytes) ++ termBytes s.is)
      opos := s.opos + ((if s.cs = [] then [] else (Image.mk s.is s.cs).bytes) ++ termBytes s.is).length
      pstate := .done } := by
  obtain ⟨e, x, hx⟩ := flushIfAny_eq h
  obtain ⟨e', x', h'⟩ := emitHeader_emitted (termHeader (flushIfAny s).is) (flushIfAny s)
  refine ⟨e', x', ?_⟩
  rw [finishRun, terminate, h', hx]
  simp [Nat.add_assoc, termBytes, encodeEmitted]

/-! ### The size of an image (R171) -/

theorem length_chunkBytes {cs : List Chunk} (h : Memory.wf cs = true) (st : ImageSettings) :
    (chunkBytes st cs).length = (cs.map fun c => Config.headerSize + payloadSize c).sum := by
  induction cs with
  | nil => rfl
  | cons c cs ih =>
    obtain ⟨h1, h2⟩ := (memory_wf_cons c cs).1 h
    have hc : (encodeEmitted st 0 (.emitChunk c)).length = Config.headerSize + payloadSize c := by
      obtain ⟨-, ⟨hf, hn⟩ | ⟨hf, d, hd, hl⟩⟩ := (chunk_wf_iff c).1 h1
      · simp [encodeEmitted, payloadSize, hf, hn, Config.headerSize]
      · simp [encodeEmitted, payloadSize, hf, hd, hl, Config.headerSize]
    simp only [chunkBytes, List.flatMap_cons, List.length_append, List.map_cons, List.sum_cons, hc] at ih ⊢
    rw [ih h2]

theorem length_imageBytes {im : Image} (h : Memory.wf im.cs = true) : im.bytes.length = imageBytes im.cs := by
  rw [Image.bytes, List.length_append, length_chunkBytes h, imageBytes]
  rfl

end Sys2Proof.Machine
end

