-- ==== Sys2Proof/Laws/Step.lean ====
section
/-! SUPPORT. What the fetch, a block and a step can answer, said once; every invariant follows from
these. -/

namespace Sys2Proof.Machine

theorem halted_iff (s : State) : s.halted = true ↔ s.pstate = .done ∨ s.pstate = .error := by
  simp [State.halted, State.isDone, State.isError]

theorem halted_eq_false_iff (s : State) : s.halted = false ↔ s.pstate ≠ .done ∧ s.pstate ≠ .error := by
  simp [State.halted, State.isDone, State.isError]

/-- The state after `DECODE` has read a valid header (R92). -/
def decoded (B : Bytes16) (s : State) : State := { s with h := B, xacc := 0, ipos := s.ipos + 16 }

/-- Everything the fetch can answer (R110, R195). -/
theorem fetch_cases (s : State) :
    (s.halted = true ∧ fetch s = .idle) ∨
    (s.halted = false ∧
      ((unread s = [] ∧ decode s.fillThreshold (unread s) = .ok .eos ∧ fetch s = .run .eos s) ∨
       (0 < (unread s).length ∧ (unread s).length < 16 ∧
          decode s.fillThreshold (unread s) = .error .truncatedHeader ∧
          fetch s = .stopped (raise .truncation s)) ∨
       (∃ B r, unread s = B.toList ++ r ∧ xor16 B ≠ 0 ∧
          decode s.fillThreshold (unread s) = .error .checksum ∧
          fetch s = .stopped (raise .checksum { s with h := B, xacc := xor16 B, ipos := s.ipos + 16 })) ∨
       (∃ B r, unread s = B.toList ++ r ∧ xor16 B = 0 ∧
          decode s.fillThreshold (unread s) = .ok (classify s.fillThreshold (unpack B)) ∧
          fetch s = .run (classify s.fillThreshold (unpack B)) (decoded B s)))) := by
  by_cases hh : s.halted = true
  · exact .inl ⟨hh, by simp [fetch, hh]⟩
  · have hf : s.halted = false := by simpa using hh
    refine .inr ⟨hf, ?_⟩
    have latch : ∀ B r, unread s = B.toList ++ r →
        latchHeader s = { s with h := B, xacc := xor16 B, ipos := s.ipos + 16 } := by
      intro B r hu
      simp only [latchHeader, hu, Bytes16.ofPrefix_toList_append, Config.headerSize]
    rcases decode_cases s.fillThreshold (unread s) with
      ⟨hu, hd⟩ | ⟨h0, h1, hd⟩ | ⟨B, r, hu, hx, hd⟩ | ⟨B, r, hu, hx, hd⟩
    · have hl : latchHeader s = s := by simp [latchHeader, hu, Bytes16.ofPrefix]
      exact .inl ⟨hu, hd, by simp [fetch, hf, hd, hl]⟩
    · exact .inr (.inl ⟨h0, h1, hd, by simp [fetch, hf, hd]⟩)
    · exact .inr (.inr (.inl ⟨B, r, hu, hx, hd, by simp [fetch, hf, hd, latch B r hu]⟩))
    · exact .inr (.inr (.inr ⟨B, r, hu, hx, hd, by simp [fetch, hf, hd, latch B r hu, decoded, hx]⟩))

/-! ### Blocks -/

theorem requirePayload_cases (hd : Header) (s : State) (body : Except FatalError State) :
    (¬ PayloadPresent hd s ∧ requirePayload hd s body = .error .truncation) ∨
    (PayloadPresent hd s ∧ requirePayload hd s body = body) := by
  unfold requirePayload PayloadPresent inAvail
  split_ifs with h
  · exact .inl ⟨by omega, rfl⟩
  · exact .inr ⟨by omega, rfl⟩

/-- Everything a literal data block can do: take an error and nothing else, or merge (and flush, with
`INIT`) with its payload present. -/
theorem literal_cases (hd : Header) (s : State) :
    (∃ x, settle s (literalBlock hd s) = .next (raise x s)) ∨
    (∃ u, PayloadPresent hd s ∧ merge hd s = .ok u ∧ settle s (literalBlock hd s) = .next (initFlush hd u)) := by
  unfold literalBlock
  rcases requirePayload_cases hd s ((merge hd s).map (initFlush hd)) with ⟨-, h⟩ | ⟨hp, h⟩
  · exact .inl ⟨.truncation, by rw [h]; rfl⟩
  · rw [h]
    cases hm : merge hd s with
    | error x => exact .inl ⟨x, rfl⟩
    | ok u => exact .inr ⟨u, hp, rfl, rfl⟩

/-- Everything a Fill data block can do. -/
theorem fill_cases (hd : Header) (s : State) :
    (∃ x, settle s (fillBlock hd s) = .next (raise x s)) ∨
    (∃ u, merge hd s = .ok u ∧ settle s (fillBlock hd s) = .next (initFlush hd u)) := by
  unfold fillBlock
  cases hm : merge hd s with
  | error x => exact .inl ⟨x, rfl⟩
  | ok u => exact .inr ⟨u, rfl, rfl⟩

/-- Everything an instruction of the input can do, by its class. -/
theorem exec_cases (hd : Header) (i : Instr) (hi : i.header? = some hd) (s : State) :
    (i = .first hd ∧
      exec i s = .next { flushIfAny s with is := ⟨hd.sig, hd.bcode, hd.addr⟩, pstate := .streaming }) ∨
    (i = .final hd ∧ exec i s = .next (finishRun s)) ∨
    (i ≠ .first hd ∧ i ≠ .final hd ∧
      ((∃ x, exec i s = .next (raise x s)) ∨
       (i = .ignore hd ∧ PayloadPresent hd s ∧ exec i s = .next (inSkip hd.count.toNat s)) ∨
       (i ∈ [Instr.data hd, .xdata hd, .xdataInit hd] ∧
          ∃ u, PayloadPresent hd s ∧ merge hd s = .ok u ∧ exec i s = .next (initFlush hd u)) ∨
       (i ∈ [Instr.fillS hd, .fillL hd, .xfill hd, .xfillInit hd] ∧
          ∃ u, merge hd s = .ok u ∧ exec i s = .next (initFlush hd u)))) := by
  cases i <;> simp only [Instr.header?, Option.some.injEq, reduceCtorEq] at hi <;> subst hi
  case first => exact .inl ⟨rfl, rfl⟩
  case final => exact .inr (.inl ⟨rfl, rfl⟩)
  case ignore hd =>
    refine .inr (.inr ⟨by simp, by simp, ?_⟩)
    rcases requirePayload_cases hd s (.ok (inSkip hd.count.toNat s)) with ⟨-, h⟩ | ⟨hp, h⟩
    · exact .inl ⟨.truncation, by simp [exec, execIgnore, h, settle]⟩
    · exact .inr (.inl ⟨rfl, hp, by simp [exec, execIgnore, h, settle]⟩)
  case data hd | xdata hd | xdataInit hd =>
    refine .inr (.inr ⟨by simp, by simp, ?_⟩)
    exact (literal_cases hd s).imp id fun h => .inr (.inl ⟨by simp, h⟩)
  case fillS hd | fillL hd | xfill hd | xfillInit hd =>
    refine .inr (.inr ⟨by simp, by simp, ?_⟩)
    exact (fill_cases hd s).imp id fun h => .inr (.inr ⟨by simp, h⟩)

/-- The class of a data block settles whether it is a Fill source, and that no bit of `0xD00` is set. -/
theorem wellFormed_literal {thr : Word} {hd : Header} {i : Instr}
    (hi : i ∈ [Instr.data hd, .xdata hd, .xdataInit hd]) (hw : wellFormed thr i = true) :
    hd.isFill = false ∧ hd.flags &&& 0xD00 = 0 := by
  simp only [List.mem_cons, List.not_mem_nil, or_false] at hi
  rcases hi with rfl | rfl | rfl <;> simp_all [wellFormed, Header.isFill]

theorem wellFormed_fill {thr : Word} {hd : Header} {i : Instr}
    (hi : i ∈ [Instr.fillS hd, .fillL hd, .xfill hd, .xfillInit hd]) (hw : wellFormed thr i = true) :
    hd.isFill = true ∧ hd.flags &&& 0xD00 = 0 := by
  simp only [List.mem_cons, List.not_mem_nil, or_false] at hi
  rcases hi with rfl | rfl | rfl | rfl <;> simp_all [wellFormed, Header.isFill]

/-! ### Steps -/

/-- Everything a step can do: it always answers a next state. -/
theorem step_cases (s : State) :
    (s.halted = true ∧ step s = .next s) ∨
    (s.halted = false ∧
      ((unread s = [] ∧ step s = .next (finishRun s)) ∨
       (0 < (unread s).length ∧ (unread s).length < 16 ∧ step s = .next (raise .truncation s)) ∨
       (∃ B r, unread s = B.toList ++ r ∧ xor16 B ≠ 0 ∧
          step s = .next (raise .checksum { s with h := B, xacc := xor16 B, ipos := s.ipos + 16 })) ∨
       (∃ B r, unread s = B.toList ++ r ∧ xor16 B = 0 ∧
          decode s.fillThreshold (unread s) = .ok (classify s.fillThreshold (unpack B)) ∧
          step s = exec (classify s.fillThreshold (unpack B)) (decoded B s)))) := by
  rcases fetch_cases s with ⟨hh, hf⟩ | ⟨hh, ⟨hu, -, hf⟩ | ⟨h0, h1, -, hf⟩ | ⟨B, r, hu, hx, -, hf⟩ | ⟨B, r, hu, hx, hd, hf⟩⟩
  · exact .inl ⟨hh, by simp [step, hf]⟩
  · exact .inr ⟨hh, .inl ⟨hu, by simp [step, hf, exec, execEos]⟩⟩
  · exact .inr ⟨hh, .inr (.inl ⟨h0, h1, by simp [step, hf]⟩)⟩
  · exact .inr ⟨hh, .inr (.inr (.inl ⟨B, r, hu, hx, by simp [step, hf]⟩))⟩
  · exact .inr ⟨hh, .inr (.inr (.inr ⟨B, r, hu, hx, hd, by simp [step, hf]⟩))⟩

end Sys2Proof.Machine
end

