-- ==== Sys2Proof/Laws/Blocks.lean ====
section
/-! SUPPORT. What the merger does with a block, by its target: appended as a new record, written into
the first match. -/

namespace Sys2Proof.Machine

/-- A literal block whose payload is there and whose merge takes no error. -/
theorem settle_literalBlock {hd : Header} {s u : State} (hp : PayloadPresent hd s) (hm : merge hd s = .ok u) :
    settle s (literalBlock hd s) = .next (initFlush hd u) := by
  rcases requirePayload_cases hd s ((merge hd s).map (initFlush hd)) with ⟨h, -⟩ | ⟨-, h⟩
  · exact absurd hp h
  · rw [literalBlock, h, hm]; rfl

/-- A Fill block whose merge takes no error. -/
theorem settle_fillBlock {hd : Header} {s u : State} (hm : merge hd s = .ok u) :
    settle s (fillBlock hd s) = .next (initFlush hd u) := by
  simp [fillBlock, hm, settle, Except.map]

/-- Without `INIT` there is no flush (R122). -/
theorem initFlush_of_no_init {hd : Header} (h : hd.flags &&& 0x080 = 0) (u : State) : initFlush hd u = u := by
  unfold initFlush Header.hasInit
  rw [if_neg (by rw [h]; decide)]

/-- The merge of a block that needs a new record (R147). -/
theorem merge_of_needsNew {hd : Header} {s : State} (h : NeedsNew s.fillThreshold hd s.cs)
    (hr : RoomForChunk s) :
    merge hd s = writeTarget hd ⟨s.cs, newChunk s.fillThreshold hd, []⟩ s := by
  simp [merge, mergeTarget_of_needsNew h, createTarget, (storeFull_eq_false_iff s).2 hr]

/-- The merge of a block with a first match (R146). -/
theorem merge_of_firstMatch {hd : Header} {s : State} {pre post : List Chunk} {c : Chunk}
    (hm : MayMerge s.fillThreshold hd) (hcs : s.cs = pre ++ c :: post) (hf : FirstMatch hd pre c) :
    merge hd s = writeTarget hd ⟨pre, c, post⟩ s := by
  simp [merge, mergeTarget_of_firstMatch hm hcs hf]

/-- A literal source written to a materialized chunk that it reaches to the end or beyond (R153). -/
theorem writeTarget_literal {hd : Header} {t : Target} {s : State} {d : List Byte}
    (hf : hd.isFill = false) (hp : PayloadPresent hd s) (hb : HasBuffer t.chunk d)
    (h1 : t.chunk.addr.toNat ≤ hd.addr.toNat) (h2 : hd.addr.toNat ≤ t.chunk.endAddr)
    (h3 : t.chunk.endAddr ≤ hd.endAddr) (h4 : hd.endAddr < t.chunk.addr.toNat + 2 ^ 32)
    (hr : RoomForBytes (hd.endAddr - t.chunk.endAddr) s) :
    ∃ k w, (w = s.wOvw ∨ (hd.endAddr = t.chunk.endAddr ∧ w = overwriteFlag hd.count s.wOvw)) ∧
      writeTarget hd t s = .ok { s with
      ipos := s.ipos + hd.count.toNat, wOvw := w
      cs := t.pre ++ { t.chunk with
        length := BitVec.ofNat 32 (hd.endAddr - t.chunk.addr.toNat)
        data := some (d ++ (payloadBytes hd s).drop (t.chunk.endAddr - hd.addr.toNat)) } :: t.post
      freeCount := k } := by
  obtain ⟨pre, ⟨a, g, f, l, dd⟩, post⟩ := t
  obtain ⟨hb1, hb2⟩ := hb
  simp only [Chunk.endAddr, Header.endAddr] at *
  subst hb1
  rcases writeTarget_cases hd ⟨pre, ⟨a, g, f, l, some d⟩, post⟩ s with ⟨hc, hw⟩ |
    ⟨n, hn, he, ⟨hl, -⟩ | ⟨hl, ⟨hf', -⟩ | ⟨-, ⟨hdf, -⟩ | ⟨-, ⟨hf', -⟩ | ⟨-, hw⟩⟩⟩⟩⟩
  · simp only [Chunk.endAddr, Header.endAddr] at hc
    have e1 : hd.addr.toNat + hd.count.toNat = a.toNat + l.toNat := by omega
    refine ⟨s.freeCount, overwriteFlag hd.count s.wOvw, .inr ⟨e1, rfl⟩, ?_⟩
    rw [hw]
    have e2 : (payloadBytes hd s).drop (a.toNat + l.toNat - hd.addr.toNat) = [] := by
      apply List.drop_eq_nil_of_le
      rw [length_payloadBytes hp]; omega
    have e3 : BitVec.ofNat 32 (hd.addr.toNat + hd.count.toNat - a.toNat) = l := by
      rw [e1, Nat.add_sub_cancel_left]; simp
    simp [coveredWrite, hf, putChunk, e2, e3, inSkip]
  · exfalso
    have hl' := of_decide_eq_true hl
    simp only [Config.lengthBound, Chunk.endAddr, Header.endAddr] at hl' he
    omega
  · simp [hf] at hf'
  · exfalso
    simp only [Chunk.endAddr, Header.endAddr] at he
    rw [show hd.addr.toNat + hd.count.toNat - (a.toNat + l.toNat) = n by omega] at hr
    have : dataFull n s = false := (dataFull_eq_false hn).2 hr
    simp [this] at hdf
  · simp [hf] at hf'
  · refine ⟨s.freeCount + n, s.wOvw, .inl rfl, ?_⟩
    rw [hw]
    simp only [Chunk.endAddr, Header.endAddr] at he
    have hk : (hd.count.toNat - n) + n = hd.count.toNat := by omega
    have hlen : (inBytes n (inSkip (hd.count.toNat - n) s)).length = n := by
      rw [inBytes_tail hk, List.length_drop, length_payloadBytes hp]; omega
    have hdat := literal_grow_data (ctr := s.freeCount) (c := ⟨a, g, f, l, some d⟩) ⟨rfl, hb2⟩ hlen
    have e4 : l + BitVec.ofNat 32 n = BitVec.ofNat 32 (hd.addr.toNat + hd.count.toNat - a.toNat) := by
      rw [show hd.addr.toNat + hd.count.toNat - a.toNat = l.toNat + n by omega]
      simp [BitVec.ofNat_add]
    have e5 : a.toNat + l.toNat - hd.addr.toNat = hd.count.toNat - n := by omega
    have e6 : lengthen (bufWrite (bufGrow ⟨a, g, f, l, some d⟩ n s.freeCount) l.toNat
          (inBytes n (inSkip (hd.count.toNat - n) s))) n
       = ⟨a, g, f, l + BitVec.ofNat 32 n, some (d ++ inBytes n (inSkip (hd.count.toNat - n) s))⟩ := by
      rw [lengthen]; congr 1
    have e7 : s.ipos + (hd.count.toNat - n) + n = s.ipos + hd.count.toNat := by omega
    simp only [literalInto]
    rw [e6, e4, e5, inBytes_tail hk]
    simp only [putChunk, inSkip, e7]

/-- The new record of a block without `FILL` (R147). -/
theorem newChunk_of_not_fill {s : State} {hd : Header} (h : hd.flags &&& 0x010 = 0) :
    newChunk s.fillThreshold hd = ⟨hd.addr, hd.arg, hd.flags, 0, some []⟩ := by
  have h0 : hd.storedFlags s.fillThreshold = hd.flags := by
    unfold Header.storedFlags
    rw [if_neg]; rintro ⟨h', -⟩; rw [h'] at h; exact absurd h (by decide)
  simp only [newChunk, h0]; rw [if_pos h]

/-- A literal block that needs a new record (R147, R153). -/
theorem merge_literal_new {hd : Header} {s : State} (h : NeedsNew s.fillThreshold hd s.cs) (hr : RoomForChunk s)
    (hf : hd.flags &&& 0x010 = 0) (hp : PayloadPresent hd s) (hb : RoomForBytes hd.count.toNat s) :
    ∃ k, merge hd s = .ok { s with
      ipos := s.ipos + hd.count.toNat
      cs := s.cs ++ [⟨hd.addr, hd.arg, hd.flags, hd.count, some (payloadBytes hd s)⟩]
      freeCount := k } := by
  rw [merge_of_needsNew h hr, newChunk_of_not_fill hf]
  obtain ⟨k, w, hw, he⟩ := writeTarget_literal
    (t := ⟨s.cs, ⟨hd.addr, hd.arg, hd.flags, 0, some []⟩, []⟩) (hd := hd) (s := s) (d := [])
    (by unfold Header.isFill; rw [hf]; rfl) hp ⟨rfl, rfl⟩ (by simp) (by simp [Chunk.endAddr])
    (by simp [Chunk.endAddr, Header.endAddr])
    (by simp only [Header.endAddr]; omega) (by simpa [Chunk.endAddr, Header.endAddr] using hb)
  refine ⟨k, ?_⟩
  rw [he]
  have hw' : w = s.wOvw := by
    rcases hw with h | ⟨h0, h⟩
    · exact h
    · have : hd.count = 0 := by
        apply BitVec.eq_of_toNat_eq
        simp [Chunk.endAddr, Header.endAddr] at h0 ⊢; exact h0
      rw [h]; simp [overwriteFlag, this]
  subst hw'
  simp [Header.endAddr, Chunk.endAddr]

/-- A `DATA` block may merge. -/
theorem data_mayMerge {thr : Word} {hd : Header} (h : wellFormed thr (.data hd) = true) :
    MayMerge thr hd ∧ hd.flags = 0 := by
  have : hd.flags = 0 := by simpa [wellFormed] using h
  exact ⟨⟨by rw [this]; rfl, by rw [this]; rintro ⟨h, -⟩; exact absurd h (by decide)⟩, this⟩

/-- A block with `INIT` or an unnamed bit may not merge (R143). -/
theorem not_mayMerge_of_flags {thr : Word} {hd : Header} {f} (h : hd.flags = f)
    (h1 : f &&& 0xD00 = 0) (h' : f &&& 0x080 ≠ 0 ∨ f &&& 0x26F ≠ 0) : ¬ MayMerge thr hd := by
  rintro ⟨h2, -⟩
  rw [flags_FEF] at h2
  have := nonMergeable_flags f h1 h'
  grind

/-- A `FILL.S` block may merge. -/
theorem fillS_mayMerge {thr : Word} {hd : Header} (h : wellFormed thr (.fillS hd) = true) :
    MayMerge thr hd ∧ hd.flags = 0x010 ∧ hd.count.toNat ≤ thr.toNat := by
  simp only [wellFormed, Bool.and_eq_true, beq_iff_eq, decide_eq_true_eq] at h
  exact ⟨⟨by rw [h.1]; rfl, by rintro ⟨-, h'⟩; omega⟩, h⟩

/-- A Fill source written to a materialized chunk whose end it passes (R151, R152). -/
theorem writeTarget_fill {hd : Header} {t : Target} {s : State} {d : List Byte} {n : Nat}
    (hf : hd.isFill = true) (hf' : t.chunk.isFill = false) (hb : HasBuffer t.chunk d)
    (h1 : t.chunk.addr.toNat ≤ hd.addr.toNat) (h2 : hd.addr.toNat ≤ t.chunk.endAddr)
    (hn : 0 < n) (he : hd.endAddr = t.chunk.endAddr + n) (h4 : hd.endAddr < t.chunk.addr.toNat + 2 ^ 32)
    (hr : RoomForBytes n s) :
    ∃ k unw, unw.length = min (hd.count.toNat % 4) n ∧ writeTarget hd t s = .ok { s with
      cs := t.pre ++ { t.chunk with
        length := BitVec.ofNat 32 (hd.endAddr - t.chunk.addr.toNat)
        data := some (d.take (hd.addr.toNat - t.chunk.addr.toNat) ++ fillRun hd (hd.count.toNat / 4) ++
              d.drop (hd.addr.toNat - t.chunk.addr.toNat + 4 * (hd.count.toNat / 4)) ++ unw) } :: t.post
      freeCount := k } := by
  obtain ⟨pre, ⟨a, g, f, l, dd⟩, post⟩ := t
  obtain ⟨hb1, hb2⟩ := hb
  simp only [Chunk.endAddr, Header.endAddr] at *
  subst hb1
  rcases writeTarget_cases hd ⟨pre, ⟨a, g, f, l, some d⟩, post⟩ s with ⟨hc, hw⟩ |
    ⟨n', hn', he', ⟨hl, -⟩ | ⟨hl, ⟨-, hf1, -⟩ | ⟨-, ⟨hdf, -⟩ | ⟨-, ⟨-, hw⟩ | ⟨hf1, -⟩⟩⟩⟩⟩
  · simp only [Chunk.endAddr, Header.endAddr] at hc; omega
  · exfalso
    have hl' := of_decide_eq_true hl
    simp only [Config.lengthBound, Chunk.endAddr, Header.endAddr] at hl' he'
    omega
  · simp [hf'] at hf1
  · exfalso
    simp only [Chunk.endAddr, Header.endAddr] at he'
    obtain rfl : n = n' := by omega
    simp [(dataFull_eq_false hn).2 hr] at hdf
  · simp only [Chunk.endAddr, Header.endAddr] at he'
    obtain rfl : n = n' := by omega
    obtain ⟨fresh, hfl, hdata⟩ := unroll_grow_data (hd := hd) (c := ⟨a, g, f, l, some d⟩) (d := d) (ctr := s.freeCount)
        (off := hd.addr.toNat - a.toNat) (n := n) rfl (by omega) (by omega)
    refine ⟨s.freeCount + n, fresh, hfl, ?_⟩
    rw [hw]
    have e4 : l + BitVec.ofNat 32 n = BitVec.ofNat 32 (hd.addr.toNat + hd.count.toNat - a.toNat) := by
      rw [show hd.addr.toNat + hd.count.toNat - a.toNat = l.toNat + n by omega]
      simp [BitVec.ofNat_add]
    have e6 : lengthen (unroll hd.fillBytes (hd.count.toNat / Config.fillWord) (hd.addr.toNat - a.toNat)
          (bufGrow ⟨a, g, f, l, some d⟩ n s.freeCount)) n
       = ⟨a, g, f, l + BitVec.ofNat 32 n, some (
              d.take (hd.addr.toNat - a.toNat) ++ fillRun hd (hd.count.toNat / 4) ++
              d.drop (hd.addr.toNat - a.toNat + 4 * (hd.count.toNat / 4)) ++ fresh)⟩ := by
      rw [← hdata, lengthen]; congr 1 <;> simp
    simp only [unrollInto, e6, putChunk, e4]
  · simp [hf] at hf1

/-- A Fill block that needs a new Fill record (R147, R154). -/
theorem merge_fill_new {hd : Header} {s : State} (h : NeedsNew s.fillThreshold hd s.cs) (hr : RoomForChunk s)
    (hf : hd.flags &&& 0x010 ≠ 0) (hs : hd.storedFlags s.fillThreshold = hd.flags) :
    merge hd s = .ok { s with cs := s.cs ++ [⟨hd.addr, hd.arg, hd.flags, hd.count, none⟩] } := by
  have hnew : newChunk s.fillThreshold hd = ⟨hd.addr, hd.arg, hd.flags, 0, none⟩ := by
    simp only [newChunk, hs, if_neg hf]
  rw [merge_of_needsNew h hr, hnew]
  have hfill : hd.isFill = true := by simpa [Header.isFill] using hf
  rcases writeTarget_cases hd ⟨s.cs, ⟨hd.addr, hd.arg, hd.flags, 0, none⟩, []⟩ s with ⟨hc, hw⟩ |
    ⟨n', hn', he', ⟨hl, -⟩ | ⟨hl, ⟨-, hf1, hw⟩ | ⟨hf1, -⟩⟩⟩
  · rw [hw]
    have hz : hd.count = 0 := BitVec.eq_of_toNat_eq (by simp [Chunk.endAddr, Header.endAddr] at hc ⊢; exact hc)
    simp [coveredWrite, hfill, putChunk, overwriteFlag, hz]
  · exfalso
    simp [lengthFull, Config.lengthBound, Chunk.endAddr, Header.endAddr] at hl he'
    omega
  · rw [hw]
    have : n' = hd.count.toNat := by simp [Chunk.endAddr, Header.endAddr] at he'; omega
    simp [claimOnly, putChunk, lengthen, this]
  · exfalso
    rcases hf1 with h | h
    · simp [hfill] at h
    · simp [Chunk.isFill] at h; exact hf h

/-- What a block of the input does to the state: it takes an error and nothing else (no `FIRST` and no
`FINAL` does), or moves on by its payload, with its effect on the settings, the parser state, the
warning, the store and the output. -/
def BlockEffect (i : Instr) (hd : Header) (s t : State) : Prop :=
  (i ≠ .first hd ∧ i ≠ .final hd ∧ ∃ x, t = raise x s) ∨
  ∃ (e : Bytes16) (x : Byte) (bs : List Byte) (k : Nat) (w : Bool),
    (i = .first hd ∧ w = s.wOvw ∧
      t = { s with
        e := e, xacc := x, cs := [], out := s.out ++ bs, opos := s.opos + bs.length
        is := ⟨hd.sig, hd.bcode, hd.addr⟩, pstate := .streaming }) ∨
    (i = .final hd ∧ w = s.wOvw ∧
      t = { s with
        e := e, xacc := x, cs := [], out := s.out ++ bs, opos := s.opos + bs.length, pstate := .done }) ∨
    (i ≠ .first hd ∧ i ≠ .final hd ∧
      (w = s.wOvw ∨
        (w = true ∧ hd.count ≠ 0 ∧ i ≠ .ignore hd ∧
          ∃ tg, mergeTarget hd s = .ok tg ∧ hd.endAddr ≤ tg.chunk.endAddr)) ∧
      t = { s with
        ipos := s.ipos + i.payloadLength, e := e, xacc := x, out := s.out ++ bs
        opos := s.opos + bs.length, cs := t.cs, freeCount := k, wOvw := w })

/-- Everything a block of the input can do. -/
theorem exec_frame {thr : Word} {s : State} {hd : Header} {i : Instr} (hh : i.header? = some hd)
    (hw : wellFormed thr i = true) : ∃ t, exec i s = .next t ∧ BlockEffect i hd s t := by
  rcases exec_cases hd i hh s with
    ⟨rfl, h⟩ | ⟨rfl, h⟩ | ⟨hn1, hn2, ⟨x, h⟩ | ⟨rfl, -, h⟩ | ⟨hi, u, -, hm, h⟩ | ⟨hi, u, hm, h⟩⟩
  · obtain ⟨e, x, bs, hf⟩ := flushIfAny_frame s
    exact ⟨_, h, .inr ⟨e, x, bs, 0, s.wOvw, .inl ⟨rfl, rfl, by rw [hf]⟩⟩⟩
  · obtain ⟨e, x, bs, hf⟩ := finishRun_frame s
    exact ⟨_, h, .inr ⟨e, x, bs, 0, s.wOvw, .inr (.inl ⟨rfl, rfl, by rw [hf]⟩)⟩⟩
  · exact ⟨_, h, .inl ⟨hn1, hn2, x, rfl⟩⟩
  · exact ⟨_, h, .inr ⟨s.e, s.xacc, [], s.freeCount, s.wOvw,
      .inr (.inr ⟨by simp, by simp, .inl rfl, by simp [inSkip, Instr.payloadLength]⟩)⟩⟩
  · obtain ⟨e, x, bs, hf⟩ := initFlush_frame hd u
    have hp : i.payloadLength = if hd.isFill then 0 else hd.count.toNat := by
      rw [(wellFormed_literal hi hw).1]
      simp only [List.mem_cons, List.not_mem_nil, or_false] at hi; rcases hi with rfl|rfl|rfl <;> rfl
    refine ⟨_, h, .inr ⟨e, x, bs, u.freeCount, u.wOvw, .inr (.inr ⟨hn1, hn2, ?_, ?_⟩)⟩⟩
    · refine (merge_wOvw hm).imp id fun ⟨a, b, c⟩ => ⟨a, b, ?_, c⟩
      rintro rfl; simp at hi
    · rw [hp, ← merge_ipos hm]; conv_lhs => rw [hf]
      have := merge_frame hm
      rw [this]
  · obtain ⟨e, x, bs, hf⟩ := initFlush_frame hd u
    have hp : i.payloadLength = if hd.isFill then 0 else hd.count.toNat := by
      rw [(wellFormed_fill hi hw).1]
      simp only [List.mem_cons, List.not_mem_nil, or_false] at hi; rcases hi with rfl|rfl|rfl|rfl <;> rfl
    refine ⟨_, h, .inr ⟨e, x, bs, u.freeCount, u.wOvw, .inr (.inr ⟨hn1, hn2, ?_, ?_⟩)⟩⟩
    · refine (merge_wOvw hm).imp id fun ⟨a, b, c⟩ => ⟨a, b, ?_, c⟩
      rintro rfl; simp at hi
    · rw [hp, ← merge_ipos hm]; conv_lhs => rw [hf]
      have := merge_frame hm
      rw [this]

/-- The unread input is the input from `ipos` on. -/
theorem unread_def (s : State) : unread s = s.inp.drop s.ipos := rfl

/-- A header that the fetch has read, tested and classified. -/
structure Fetches (s : State) (B : Bytes16) (r : List Byte) (i : Instr) : Prop where
  running : s.halted = false
  input   : unread s = B.toList ++ r
  valid   : xor16 B = 0
  isClass : i = classify s.fillThreshold (unpack B)
  decoded : decode s.fillThreshold (unread s) = .ok i
  header  : i.header? = some (unpack B)
  wf      : wellFormed s.fillThreshold i = true
  ne_eos  : i ≠ .eos

/-- What the fetch alone settles: a halted engine, the end of the input, a short header, a bad
checksum. -/
def FetchEffect (s t : State) : Prop :=
  (s.halted = true ∧ t = s) ∨
  (s.halted = false ∧ unread s = [] ∧ decode s.fillThreshold (unread s) = .ok .eos ∧ t = finishRun s) ∨
  (s.halted = false ∧ 0 < (unread s).length ∧ (unread s).length < 16 ∧
    decode s.fillThreshold (unread s) = .error .truncatedHeader ∧ t = raise .truncation s) ∨
  (∃ B r, s.halted = false ∧ unread s = B.toList ++ r ∧
    decode s.fillThreshold (unread s) = .error .checksum ∧
    t = raise .checksum { s with h := B, xacc := xor16 B, ipos := s.ipos + 16 })

/-- Every step answers a next state: by the fetch alone, or by the block it has read (R110, R195). -/
theorem step_answers (s : State) : ∃ t, step s = .next t ∧
    (FetchEffect s t ∨ ∃ B r i, Fetches s B r i ∧ exec i (decoded B s) = .next t) := by
  rcases fetch_cases s with
    ⟨hh, hf⟩ | ⟨hh, ⟨hu, hd, hf⟩ | ⟨h0, h1, hd, hf⟩ | ⟨B, r, hu, hx, hd, hf⟩ | ⟨B, r, hu, hx, hd, hf⟩⟩
  · exact ⟨s, by simp [step, hf], .inl (.inl ⟨hh, rfl⟩)⟩
  · exact ⟨_, by simp only [step, hf]; rfl, .inl (.inr (.inl ⟨hh, hu, hd, rfl⟩))⟩
  · exact ⟨_, by simp only [step, hf], .inl (.inr (.inr (.inl ⟨hh, h0, h1, hd, rfl⟩)))⟩
  · exact ⟨_, by simp only [step, hf], .inl (.inr (.inr (.inr ⟨B, r, hh, hu, hd, rfl⟩)))⟩
  · obtain ⟨t, ht, -⟩ := exec_frame (s := decoded B s) (classify_header s.fillThreshold (unpack B))
      (classify_wf _ _)
    exact ⟨t, by simp only [step, hf]; exact ht,
      .inr ⟨B, r, _, ⟨hh, hu, hx, rfl, hd, classify_header _ _, classify_wf _ _, classify_ne_eos _ _⟩, ht⟩⟩

/-- Everything a step can do to the state. -/
theorem step_frame {s t : State} (h : step s = .next t) :
    FetchEffect s t ∨ ∃ B r i, Fetches s B r i ∧ BlockEffect i (unpack B) (decoded B s) t := by
  obtain ⟨t', ht, hc⟩ := step_answers s
  obtain rfl : t' = t := by rw [h] at ht; cases ht; rfl
  rcases hc with hc | ⟨B, r, i, hF, he⟩
  · exact .inl hc
  · obtain ⟨u, hu, hf⟩ := exec_frame (s := decoded B s) hF.header hF.wf
    rw [he] at hu; cases hu
    exact .inr ⟨B, r, i, hF, hf⟩

end Sys2Proof.Machine
end

