-- ==== Sys2Proof/Laws/PerInstr.lean ====
section
/-! SUPPORT. For every instruction, as syntax: a well-formed input instruction is the class of its own
header (R65 to R67). -/

namespace Sys2Proof.Laws.Classified

/-- The classifier gives a well-formed instruction back from its header. -/
def Statement (i : Instr) : Prop :=
  ∀ (threshold : Word) (hd : Header), i.header? = some hd → wellFormed threshold i = true →
    classify threshold hd = i

theorem first (h : Header) : Statement (.first h) := by
  intro thr hd hh hw
  obtain rfl : h = hd := Option.some.inj hh
  simp_all [wellFormed, classify]

theorem final (h : Header) : Statement (.final h) := by
  intro thr hd hh hw
  obtain rfl : h = hd := Option.some.inj hh
  simp_all [wellFormed, classify]

theorem ignore (h : Header) : Statement (.ignore h) := by
  intro thr hd hh hw
  obtain rfl : h = hd := Option.some.inj hh
  have hf := flags_C00 h.flags
  simp_all [wellFormed, classify]

theorem data (h : Header) : Statement (.data h) := by
  intro thr hd hh hw
  obtain rfl : h = hd := Option.some.inj hh
  simp_all [wellFormed, classify]

theorem fillS (h : Header) : Statement (.fillS h) := by
  intro thr hd hh hw
  obtain rfl : h = hd := Option.some.inj hh
  simp only [wellFormed, Bool.and_eq_true, beq_iff_eq, decide_eq_true_eq] at hw
  have : ¬ thr.toNat < h.count.toNat := by omega
  simp [classify, hw.1, this]

theorem fillL (h : Header) : Statement (.fillL h) := by
  intro thr hd hh hw
  obtain rfl : h = hd := Option.some.inj hh
  simp only [wellFormed, Bool.and_eq_true, beq_iff_eq, decide_eq_true_eq] at hw
  simp [classify, hw.1, hw.2]

theorem xdataInit (h : Header) : Statement (.xdataInit h) := by
  intro thr hd hh hw
  obtain rfl : h = hd := Option.some.inj hh
  have hf := nonMergeable_flags h.flags
  simp_all [wellFormed, classify]

theorem xfillInit (h : Header) : Statement (.xfillInit h) := by
  intro thr hd hh hw
  obtain rfl : h = hd := Option.some.inj hh
  have hf := nonMergeable_flags h.flags
  simp_all [wellFormed, classify]

theorem xdata (h : Header) : Statement (.xdata h) := by
  intro thr hd hh hw
  obtain rfl : h = hd := Option.some.inj hh
  have hf := nonMergeable_flags h.flags
  simp_all [wellFormed, classify]

theorem xfill (h : Header) : Statement (.xfill h) := by
  intro thr hd hh hw
  obtain rfl : h = hd := Option.some.inj hh
  have hf := nonMergeable_flags h.flags
  simp_all [wellFormed, classify]

theorem emitSizing : Statement .emitSizing := by
  intro thr hd hh; cases hh

theorem emitChunk (c : Chunk) : Statement (.emitChunk c) := by
  intro thr hd hh; cases hh

theorem emitTerm : Statement .emitTerm := by
  intro thr hd hh; cases hh

theorem eos : Statement .eos := by
  intro thr hd hh; cases hh

end Sys2Proof.Laws.Classified
end

