-- ==== Sys2Proof/Tests/Slice0.lean ====
section
/-! SUPPORT. Tests. Every expected value comes from the spec: the worked encodings of
`30_encoding.md` section 9, the vectors of `95_test_vectors.md` (named V-… below) or a rule. The last
part gives, for each statement with hypotheses, a concrete case that meets them. -/

namespace Sys2Proof.Tests

open Sys2Proof Sys2Proof.Machine

-- One theorem at a time, which keeps the memory of a check low.
set_option Elab.async false

/-! ### Helpers -/

/-- A running engine with a store and an input. -/
def st (cs : List Chunk) (bs : List Byte) : State :=
  { State.reset with pstate := .streaming, is := ⟨0xAD, 6, 0xFFA00000⟩, cs := cs, inp := bs }

/-- The next state of an outcome. -/
def next? : Host.Outcome State Fault Refusal → Option State
  | .next t => some t
  | _       => none

/-- The chunk of V-CS-6 and V-CS-8: eight bytes at `0x1000`. -/
def c8 : Chunk := ⟨0x1000, 0, 0, 8, some [1, 2, 3, 4, 5, 6, 7, 8]⟩

/-- The Fill chunk of V-CS-12: `0x3000`, 1024 bytes claimed. -/
def cF : Chunk := ⟨0x3000, 0, 0x010, 1024, none⟩

/-- A header of the vectors: `b=6 s=0xAD`. -/
def hd (f : Flags) (a n g : Word) : Header := ⟨6, f, 0xAD, a, n, g⟩

/-- The terminator `T` of the vectors. -/
def bytesT : List Byte := [0x06, 0x80, 0x74, 0xAD, 0, 0, 0xA0, 0xFF, 0, 0, 0, 0, 0, 0, 0, 0]

/-- The First block `F` of the vectors. -/
def bytesF : List Byte := [0x06, 0x40, 0xB4, 0xAD, 0, 0, 0xA0, 0xFF, 0, 0, 0, 0, 0, 0, 0, 0]

/-- The DATA header of V-HC-2. -/
def headerV : Bytes16 := ⟨0x06, 0x00, 0xAB, 0xAD, 0, 0x10, 0, 0, 0x10, 0, 0, 0, 0, 0, 0, 0⟩

/-- The header of V-HC-3 with byte 0 bit 0 flipped. -/
def headerBad : Bytes16 := ⟨0x07, 0x00, 0xAB, 0xAD, 0, 0x10, 0, 0, 0x10, 0, 0, 0, 0, 0, 0, 0⟩

/-- Sixteen payload bytes. -/
def payload16 : List Byte := [1, 2, 3, 4, 5, 6, 7, 8, 9, 10, 11, 12, 13, 14, 15, 16]

/-! ### WellFormed refuses -/

theorem smoke_first : wellFormed 256 (.first (hd 0x800 0 0 0)) = false := by decide
theorem smoke_final_has_first : wellFormed 256 (.final (hd 0xC00 0 0 0)) = false := by decide
theorem smoke_final_lacks_final : wellFormed 256 (.final (hd 0x100 0 0 0)) = false := by decide
theorem smoke_ignore_has_final : wellFormed 256 (.ignore (hd 0x900 0 0 0)) = false := by decide
theorem smoke_ignore_lacks_ignore : wellFormed 256 (.ignore (hd 0x010 0 0 0)) = false := by decide
theorem smoke_data : wellFormed 256 (.data (hd 0x001 0 0 0)) = false := by decide
theorem smoke_fillS_flags : wellFormed 256 (.fillS (hd 0x011 0 8 0)) = false := by decide
theorem smoke_fillS_count : wellFormed 256 (.fillS (hd 0x010 0 257 0)) = false := by decide
theorem smoke_fillL_flags : wellFormed 256 (.fillL (hd 0x000 0 257 0)) = false := by decide
theorem smoke_fillL_count : wellFormed 256 (.fillL (hd 0x010 0 256 0)) = false := by decide
theorem smoke_xdataInit_not_data : wellFormed 256 (.xdataInit (hd 0x180 0 0 0)) = false := by decide
theorem smoke_xdataInit_has_fill : wellFormed 256 (.xdataInit (hd 0x090 0 0 0)) = false := by decide
theorem smoke_xdataInit_lacks_init : wellFormed 256 (.xdataInit (hd 0x001 0 0 0)) = false := by decide
theorem smoke_xfillInit_not_data : wellFormed 256 (.xfillInit (hd 0x190 0 0 0)) = false := by decide
theorem smoke_xfillInit_lacks_fill : wellFormed 256 (.xfillInit (hd 0x080 0 0 0)) = false := by decide
theorem smoke_xfillInit_lacks_init : wellFormed 256 (.xfillInit (hd 0x011 0 0 0)) = false := by decide
theorem smoke_xdata_not_data : wellFormed 256 (.xdata (hd 0x801 0 0 0)) = false := by decide
theorem smoke_xdata_has_fill : wellFormed 256 (.xdata (hd 0x011 0 0 0)) = false := by decide
theorem smoke_xdata_has_init : wellFormed 256 (.xdata (hd 0x081 0 0 0)) = false := by decide
theorem smoke_xdata_mergeable : wellFormed 256 (.xdata (hd 0x000 0 0 0)) = false := by decide
theorem smoke_xfill_not_data : wellFormed 256 (.xfill (hd 0x411 0 0 0)) = false := by decide
theorem smoke_xfill_lacks_fill : wellFormed 256 (.xfill (hd 0x001 0 0 0)) = false := by decide
theorem smoke_xfill_has_init : wellFormed 256 (.xfill (hd 0x091 0 0 0)) = false := by decide
theorem smoke_xfill_mergeable : wellFormed 256 (.xfill (hd 0x010 0 0 0)) = false := by decide
theorem smoke_chunk_flags : wellFormed 256 (.emitChunk { c8 with flags := 0x400 }) = false := by decide
theorem smoke_chunk_fill_has_buffer : wellFormed 256 (.emitChunk { c8 with flags := 0x010 }) = false := by decide
theorem smoke_chunk_no_buffer : wellFormed 256 (.emitChunk { c8 with data := none }) = false := by decide
theorem smoke_chunk_length : wellFormed 256 (.emitChunk { c8 with length := 7 }) = false := by decide
theorem smoke_wellFormed_accepts : wellFormed 256 (.emitChunk c8) = true ∧ wellFormed 256 (.emitChunk cF) = true := by
  decide

/-! ### Decoding: words written out from the spec -/

/-- `30_encoding.md` section 9, line 1. -/
theorem test_decode_first :
    decode 256 [0x06, 0x50, 0xE4, 0xAD, 0, 0, 0xA0, 0xFF, 0, 0, 0, 0, 0x40, 0, 0, 0] =
      .ok (.first ⟨6, 0x500, 0xAD, 0xFFA00000, 0, 0x40⟩) := by decide +kernel

/-- Section 9, line 7; also the bytes of `EMIT.TERM` in V-HC-5, row 1. -/
theorem test_decode_final : decode 256 bytesT = .ok (.final ⟨6, 0x800, 0xAD, 0xFFA00000, 0, 0⟩) := by
  decide +kernel

/-- Section 9, line 6. -/
theorem test_decode_ignore :
    decode 256 [0x01, 0x10, 0x9A, 0xAD, 0, 0, 0, 0, 0x04, 0, 0, 0, 0xEF, 0xBE, 0xAD, 0xDE] =
      .ok (.ignore ⟨1, 0x100, 0xAD, 0, 4, 0xDEADBEEF⟩) := by decide +kernel

/-- Section 9, line 2. -/
theorem test_decode_data :
    decode 256 headerV.toList = .ok (.data ⟨6, 0x000, 0xAD, 0x1000, 0x10, 0⟩) := by decide +kernel

/-- Section 9, line 3. -/
theorem test_decode_fillS :
    decode 256 [0x06, 0x01, 0xCA, 0xAD, 0, 0x20, 0, 0, 0x40, 0, 0, 0, 0xFF, 0xFF, 0xFF, 0xFF] =
      .ok (.fillS ⟨6, 0x010, 0xAD, 0x2000, 64, 0xFFFFFFFF⟩) := by decide +kernel

/-- Section 9, line 4. -/
theorem test_decode_fillL :
    decode 256 [0x06, 0x01, 0x9E, 0xAD, 0, 0x30, 0, 0, 0, 0x04, 0, 0, 0, 0, 0, 0] =
      .ok (.fillL ⟨6, 0x010, 0xAD, 0x3000, 1024, 0⟩) := by decide +kernel

/-- Section 9, line 5. -/
theorem test_decode_xdataInit :
    decode 256 [0x06, 0x08, 0xF4, 0xAD, 0, 0, 0xA0, 0xFF, 0x08, 0, 0, 0, 0, 0, 0, 0] =
      .ok (.xdataInit ⟨6, 0x080, 0xAD, 0xFFA00000, 8, 0⟩) := by decide +kernel

/-- R62 and R95 for `XFILL.INIT f=0x090 a=0 n=0`: `hw0 = 0x0906`, checksum `06^09^AD = A2`. -/
theorem test_decode_xfillInit :
    decode 256 [0x06, 0x09, 0xA2, 0xAD, 0, 0, 0, 0, 0, 0, 0, 0, 0, 0, 0, 0] =
      .ok (.xfillInit ⟨6, 0x090, 0xAD, 0, 0, 0⟩) := by decide +kernel

/-- V-HC-5, row 4: `f=0x2B5` without its `FILL` and `INIT` bits is `0x225`, bytes `5A 22`, checksum
`2D^2B^22 = 24`. -/
theorem test_decode_xdata :
    decode 256 [0x5A, 0x22, 0x24, 0x5C, 0x78, 0x56, 0x34, 0x12, 0xF0, 0xDE, 0xBC, 0x9A, 0x3C, 0x2D, 0x1E, 0x0F] =
      .ok (.xdata ⟨0xA, 0x225, 0x5C, 0x12345678, 0x9ABCDEF0, 0x0F1E2D3C⟩) := by decide +kernel

/-- R62 and R95 for `XFILL f=0x011 a=0 n=0`: `hw0 = 0x0116`, checksum `16^01^AD = BA`. -/
theorem test_decode_xfill :
    decode 256 [0x16, 0x01, 0xBA, 0xAD, 0, 0, 0, 0, 0, 0, 0, 0, 0, 0, 0, 0] =
      .ok (.xfill ⟨6, 0x011, 0xAD, 0, 0, 0⟩) := by decide +kernel

/-- R68: nothing left. -/
theorem test_decode_eos : decode 256 [] = .ok .eos := by decide

/-- V-HC-5, row 2: a sizing header, read in `OUT`; on the input it is a `FIRST` block (V-EN-1, `0x500`). -/
theorem test_decode_emitSizing :
    decodeEmitted [0x06, 0x50, 0xE4, 0xAD, 0, 0, 0xA0, 0xFF, 0, 0, 0, 0, 0x40, 0, 0, 0] =
      some (.emitSizing, []) := by decide +kernel

/-- The chunk of V-SP-7 in `OUT`: `a=0x1000 n=4`, with its payload. -/
theorem test_decode_emitChunk :
    decodeEmitted [0, 0, 0x14, 0, 0, 0x10, 0, 0, 4, 0, 0, 0, 0, 0, 0, 0, 1, 2, 3, 4] =
      some (.emitChunk ⟨0x1000, 0, 0, 4, some [1, 2, 3, 4]⟩, []) := by decide +kernel

/-- V-HC-5, row 1. -/
theorem test_decode_emitTerm : decodeEmitted bytesT = some (.emitTerm, []) := by decide +kernel

/-- V-HC-3, row 1. -/
theorem test_decode_bad_checksum : decode 256 headerBad.toList = .error .checksum := by decide +kernel

/-- R191 (a): fifteen bytes are no header. -/
theorem test_decode_short : decode 256 (bytesT.take 15) = .error .truncatedHeader := by decide

/-- V-HC-1. -/
theorem test_genChecksum :
    genChecksum ⟨0x06, 0x50, 0x00, 0xAD, 0, 0, 0xA0, 0xFF, 0, 0, 0, 0, 0x40, 0, 0, 0⟩ = 0xE4 := by decide

/-- V-HC-5, row 4: the encoder. -/
theorem test_encode :
    encode (.xfillInit ⟨0xA, 0x2B5, 0x5C, 0x12345678, 0x9ABCDEF0, 0x0F1E2D3C⟩) =
      [0x5A, 0x2B, 0x2D, 0x5C, 0x78, 0x56, 0x34, 0x12, 0xF0, 0xDE, 0xBC, 0x9A, 0x3C, 0x2D, 0x1E, 0x0F] := by
  decide +kernel

/-- V-EN-1: the classes of some flag values with no operand. -/
theorem test_classes :
    ([0x000, 0x001, 0x26F, 0x011, 0x080, 0x0EF, 0x090, 0x2FF, 0x100, 0x110, 0x36F, 0x400, 0xC00, 0xFFF,
      0x800, 0x900, 0xBFF].map fun f => (classify 256 (hd f 0 0 0)).mnemonic) =
      ["DATA", "XDATA", "XDATA", "XFILL", "XDATA.INIT", "XDATA.INIT", "XFILL.INIT", "XFILL.INIT", "IGNORE",
       "IGNORE", "IGNORE", "FIRST", "FIRST", "FIRST", "FINAL", "FINAL", "FINAL"] := by decide +kernel

/-- V-EN-1: the threshold is a strict unsigned comparison, also at 8 and 0. -/
theorem test_threshold :
    ([(256, 256), (256, 257), (256, 0xFFFFFFFF), (8, 8), (8, 9), (0, 0), (0, 1)].map fun p =>
      (classify (BitVec.ofNat 32 p.1) (hd 0x010 0 (BitVec.ofNat 32 p.2) 0)).mnemonic) =
      ["FILL.S", "FILL.L", "FILL.L", "FILL.S", "FILL.L", "FILL.S", "FILL.L"] := by decide +kernel

/-! ### What the instructions do -/

/-- V-SP-2, first step. -/
theorem test_first :
    (next? (step { State.reset with inp := bytesF })).map (fun t => (t.is, t.pstate, t.ipos, t.out)) =
      some (⟨0xAD, 6, 0xFFA00000⟩, .streaming, 16, []) := by decide +kernel

/-- V-SP-9, third step: the flush uses the OLD settings. -/
theorem test_first_flushes :
    (next? (exec (.first ⟨2, 0x400, 0x5A, 0x20000000, 0, 0⟩)
      (st [⟨0x1000, 0, 0, 4, some [1, 2, 3, 4]⟩] []))).map (fun t => (t.is, t.cs, t.out)) =
      some (⟨0x5A, 2, 0x20000000⟩, [],
        [0x06, 0x50, 0x80, 0xAD, 0, 0, 0xA0, 0xFF, 0, 0, 0, 0, 0x24, 0, 0, 0] ++
        [0x06, 0x00, 0xBF, 0xAD, 0, 0x10, 0, 0, 4, 0, 0, 0, 0, 0, 0, 0] ++ [1, 2, 3, 4]) := by decide +kernel

/-- V-SP-3, second step: the terminator has the settings' address. -/
theorem test_final :
    (next? (exec (.final (hd 0x800 0 0 0)) (st [] []))).map (fun t => (t.pstate, t.out)) =
      some (.done, bytesT) := by decide +kernel

/-- V-SP-1: an empty input from reset. -/
theorem test_eos :
    (next? (step State.reset)).map (fun t => (t.pstate, t.ipos, t.is, t.out)) =
      some (.done, 0, ⟨0, 0, 0⟩, [0, 0x80, 0x80, 0, 0, 0, 0, 0, 0, 0, 0, 0, 0, 0, 0, 0]) := by decide +kernel

/-- V-SP-6, second step. -/
theorem test_ignore :
    (next? (step (st [c8] ([0x01, 0x10, 0x9A, 0xAD, 0, 0, 0, 0, 0x04, 0, 0, 0, 0xEF, 0xBE, 0xAD, 0xDE] ++
      [0x11, 0x22, 0x33, 0x44])))).map (fun t => (t.ipos, t.cs, t.out)) = some (20, [c8], []) := by decide +kernel

/-- V-CS-6: a covered literal write. -/
theorem test_data_covered :
    (next? (exec (.data (hd 0 0x1002 4 0)) (st [c8] [0xE1, 0xE2, 0xE3, 0xE4]))).map
      (fun t => (t.cs, t.ipos, t.wOvw)) = some ([c8], 4, true) := by decide +kernel

/-- V-CS-7: a partial overlap. -/
theorem test_data_extends :
    (next? (exec (.data (hd 0 0x1006 4 0)) (st [c8] [0xE1, 0xE2, 0xE3, 0xE4]))).map
      (fun t => (t.cs, t.ipos, t.wOvw)) =
      some ([⟨0x1000, 0, 0, 10, some [1, 2, 3, 4, 5, 6, 7, 8, 0xE3, 0xE4]⟩], 4, false) := by decide +kernel

/-- V-CS-8 (a): a small Fill that overwrites old bytes. -/
theorem test_fillS_extends :
    (next? (exec (.fillS (hd 0x010 0x1004 8 0xDDCCBBAA)) (st [c8] []))).map (fun t => (t.cs, t.wOvw)) =
      some ([⟨0x1000, 0, 0, 12, some [1, 2, 3, 4, 0xAA, 0xBB, 0xCC, 0xDD, 0xAA, 0xBB, 0xCC, 0xDD]⟩], false) := by
  decide +kernel

/-- V-CS-8 (d): the bytes that the spec fixes, when the remainder lies partly in old data. -/
theorem test_fillS_remainder :
    ((next? (exec (.fillS (hd 0x010 0x1002 7 0xDDCCBBAA)) (st [c8] []))).bind fun t => t.cs[0]?).map
      (fun c => (c.length, c.buf.length, c.buf.take 8)) =
      some (9, 9, [1, 2, 0xAA, 0xBB, 0xCC, 0xDD, 7, 8]) := by decide +kernel

/-- V-CS-12: a large Fill is a record without a buffer. -/
theorem test_fillL :
    (next? (exec (.fillL (hd 0x010 0x3000 1024 0)) (st [] []))).map (fun t => t.cs) = some [cF] := by
  decide +kernel

/-- R120, R122: the chunk is in the image it ends; checksums `06^50^AD^A0^FF^22 = 86` and
`06^08^AD^80^A0^FF^02 = 7E`. -/
theorem test_xdataInit :
    (next? (exec (.xdataInit (hd 0x080 0xFFA08000 2 0)) (st [] [0x81, 0x82]))).map (fun t => (t.cs, t.out)) =
      some ([], [0x06, 0x50, 0x86, 0xAD, 0, 0, 0xA0, 0xFF, 0, 0, 0, 0, 0x22, 0, 0, 0] ++
        [0x06, 0x08, 0x7E, 0xAD, 0, 0x80, 0xA0, 0xFF, 2, 0, 0, 0, 0, 0, 0, 0] ++ [0x81, 0x82]) := by decide +kernel

/-- R121, R122, R173, R175: an image of one Fill chunk, `total = 0x20`. -/
theorem test_xfillInit :
    (next? (exec (.xfillInit (hd 0x090 0 0 0)) (st [] []))).map (fun t => (t.cs, t.out)) =
      some ([], [0x06, 0x50, 0x84, 0xAD, 0, 0, 0xA0, 0xFF, 0, 0, 0, 0, 0x20, 0, 0, 0] ++
        [0x06, 0x09, 0xA2, 0xAD, 0, 0, 0, 0, 0, 0, 0, 0, 0, 0, 0, 0]) := by decide +kernel

/-- As V-CS-20: unnamed flag bits are kept, and the adjacent chunk is not extended (R143). -/
theorem test_xdata :
    (next? (exec (.xdata (hd 0x002 0x1008 2 0x77)) (st [c8] [5, 6]))).map (fun t => (t.cs, t.ipos)) =
      some ([c8, ⟨0x1008, 0x77, 0x002, 2, some [5, 6]⟩], 2) := by decide +kernel

/-- V-CS-18: `FILL` with an unnamed bit is kept as a Fill chunk, whatever its count. -/
theorem test_xfill :
    (next? (exec (.xfill (hd 0x011 0x4000 8 0x11111111)) (st [] []))).map (fun t => t.cs) =
      some [⟨0x4000, 0x11111111, 0x011, 8, none⟩] := by decide +kernel

/-- R171, R173, R95: a Fill chunk and an empty record give `total = 0x30`; checksum
`06^50^AD^A0^FF^30 = 94`. -/
theorem test_emitSizing :
    (next? (exec .emitSizing (st [cF, ⟨0, 0, 0, 0, some []⟩] []))).map (fun t => (t.xacc, t.out, t.opos)) =
      some (0x94, [0x06, 0x50, 0x94, 0xAD, 0, 0, 0xA0, 0xFF, 0, 0, 0, 0, 0x30, 0, 0, 0], 16) := by decide +kernel

/-- V-SP-9, the second chunk: bcode and signature from the settings. -/
theorem test_emitChunk :
    (next? (exec (.emitChunk ⟨0x2000, 0, 0, 4, some [5, 6, 7, 8]⟩)
      { st [] [] with is := ⟨0x5A, 2, 0x20000000⟩ })).map (fun t => t.out) =
      some ([0x02, 0x00, 0x7C, 0x5A, 0, 0x20, 0, 0, 4, 0, 0, 0, 0, 0, 0, 0] ++ [5, 6, 7, 8]) := by decide +kernel

/-- V-SP-9, the terminator. -/
theorem test_emitTerm :
    (next? (exec .emitTerm { st [] [] with is := ⟨0x5A, 2, 0x20000000⟩ })).map (fun t => t.out) =
      some [0x02, 0x80, 0xF8, 0x5A, 0, 0, 0, 0x20, 0, 0, 0, 0, 0, 0, 0, 0] := by decide +kernel

/-- R20: with `POS_W` of 4 bits the register that the host reads wraps after the 20 bytes of V-SP-6's
Ignore block; the engine then takes the next input byte, not one it has read. -/
theorem test_position_wraps :
    (next? (step { st [] ([0x01, 0x10, 0x9A, 0xAD, 0, 0, 0, 0, 0x04, 0, 0, 0, 0xEF, 0xBE, 0xAD, 0xDE] ++
      [0x11, 0x22, 0x33, 0x44] ++ bytesT) with posWidth := some 4 })).map
      (fun t => (t.status.ipos, unread t)) = some (4, bytesT) := by decide +kernel

/-! ### Fatal errors and the host -/

/-- V-HC-3, row 1. -/
theorem test_checksum_error :
    (next? (step (st [] headerBad.toList))).map (fun t => (t.xacc, t.ipos, t.err, t.pstate, t.h)) =
      some (0x01, 16, .checksumError, .error, headerBad) := by decide +kernel

/-- V-SP-5: the header is consumed, the payload is not. -/
theorem test_truncated_payload :
    (next? (step (st [] (headerV.toList ++ payload16.take 15)))).map
      (fun t => (t.ipos, t.err, t.err.code, t.pstate, t.cs)) =
      some (16, .truncationError, 2, .error, []) := by decide +kernel

/-- R28, U7. -/
theorem test_threshold_window :
    next? (hostWriteThreshold 8 State.reset) = some { State.reset with fillThreshold := 8 } ∧
    next? (hostWriteThreshold 8 (st [] [])) = none := by decide

/-- A table word is fetched and run by the first step after reset: `IGNORE` with its zero operands. -/
theorem test_table_word :
    (decodeTableWord 32 0x00001000).map Instr.mnemonic = some "IGNORE" ∧
    (next? (step (State.reset.withFetchWord 32 0x00001000))).map (fun t => (t.ipos, t.err)) =
      some (16, .none) := by decide +kernel

/-- The row without encoding is the end of the input. -/
theorem test_table_eos :
    decodeTableWord 0 0 = some .eos ∧
    (next? (step (State.reset.withFetchWord 0 0))).map (fun t => t.pstate) = some .done := by decide +kernel

/-! ### Witnesses: for each statement with hypotheses, a case that meets all of them -/

/-- The header of V-HC-2 with its payload, in a store with one chunk. -/
def sData : State := st [c8] (headerV.toList ++ payload16)

theorem witness_OneFlippedBitStopsTheRun :
    (st [] (headerBad.toList ++ payload16)).halted = false ∧ 0 < 16 ∧ 0 < 8 ∧ xor16 headerV = 0 ∧
    (st [] (headerBad.toList ++ payload16)).inp.drop 0 =
      headerV.toList.modify 0 (fun b => b ^^^ (1#8 <<< 0)) ++ payload16 := by decide +kernel

/-- The last bit of the last byte (V-HC-3 has bit 0 of byte 15). -/
theorem witness_OneFlippedBit_last : 15 < 16 ∧ 7 < 8 ∧ xor16 headerV = 0 := by decide

theorem witness_BadHeaderTakesChecksumError :
    (st [] headerBad.toList).halted = false ∧ (st [] headerBad.toList).inp.drop 0 = headerBad.toList ++ [] ∧
    xor16 headerBad ≠ 0 := by decide +kernel

/-- Clause (a) at 1 and at 15 bytes. -/
theorem witness_TruncatedHeader :
    ∀ n ∈ [1, 15], (st [] (bytesT.take n)).halted = false ∧ 0 < (st [] (bytesT.take n)).inp.length ∧
      (st [] (bytesT.take n)).inp.length - 0 < 16 := by decide

/-- Clause (b): a header with no payload byte, and with one byte too few. -/
theorem witness_TruncatedPayload :
    ∀ n ∈ [0, 15], (st [] (headerV.toList ++ payload16.take n)).halted = false ∧
      (st [] (headerV.toList ++ payload16.take n)).inp.drop 0 = headerV.toList ++ payload16.take n ∧
      decode 256 (headerV.toList ++ payload16.take n) = .ok (.data (hd 0 0x1000 16 0)) ∧
      (payload16.take n).length < (Instr.data (hd 0 0x1000 16 0)).payloadLength := by decide +kernel

/-- An input block, and `EOS` with nothing after it. -/
theorem witness_DecodeOfEncodeIsTheInstruction :
    (wellFormed 256 (.fillS (hd 0x010 0 256 7)) = true ∧ (Instr.fillS (hd 0x010 0 256 7)).isInput = true ∧
      Instr.fillS (hd 0x010 0 256 7) ≠ .eos) ∧
    (wellFormed 256 .eos = true ∧ Instr.eos.isInput = true) := by decide

theorem witness_EncodeOfDecodeIsTheBytes :
    decode 256 (headerV.toList ++ [1]) = .ok (.data (hd 0 0x1000 16 0)) := by decide +kernel

theorem witness_OneClassPerHeader :
    wellFormed 256 (.fillS (hd 0x010 0 256 0)) = true ∧
    (Instr.fillS (hd 0x010 0 256 0)).header? = some (hd 0x010 0 256 0) := by decide

theorem witness_EmittedFormsReadBack :
    (wellFormed 256 (.emitChunk c8) = true ∧ (Instr.emitChunk c8).isInput = false) ∧
    (wellFormed 256 (.emitChunk cF) = true ∧ (Instr.emitChunk cF).isInput = false) ∧
    (wellFormed 256 .emitSizing = true ∧ Instr.emitSizing.isInput = false) ∧
    (wellFormed 256 .emitTerm = true ∧ Instr.emitTerm.isInput = false) := by decide

theorem witness_StepRunsTheDecodedInstruction :
    ((st [c8] []).halted = false ∧ (st [c8] []).inp.drop 0 = []) ∧
    (sData.halted = false ∧ sData.inp.drop sData.ipos = headerV.toList ++ payload16 ∧
      decode sData.fillThreshold (headerV.toList ++ payload16) = .ok (.data (hd 0 0x1000 16 0))) := by
  decide +kernel

theorem witness_HaltedStepChangesNothing :
    (State.mk .zero .zero 0 0 0 .done .none false 256 ⟨0, 0, 0⟩ [] [1] [] none none none 0).pstate = .done ∧
    (State.mk .zero .zero 0 0 0 .error .checksumError false 256 ⟨0, 0, 0⟩ [] [1] [] none none none 0).pstate = .error := by
  decide

/-- A step of a data block: the hypothesis of every statement about `step s = next t`, here with the
block inside its match, so that the warning is set (`OverwriteWarningOnlyFromCoveredWrite`). -/
theorem witness_step_next : ∃ t, step (st [c8] ([0x06, 0, 0xBB, 0xAD, 0, 0x10, 0, 0, 0, 0, 0, 0, 0, 0, 0, 0] ++ [9])) = .next t :=
  ⟨_, rfl⟩

theorem witness_OverwriteWarning :
    (next? (step (st [c8] ([0x06, 0, 0xBC, 0xAD, 2, 0x10, 0, 0, 5, 0, 0, 0, 0, 0, 0, 0] ++ payload16)))).map
      (fun t => t.wOvw) = some true ∧ (st [c8] []).wOvw = false := by decide +kernel

/-- A finite width, and a step of a block that takes no error. -/
theorem witness_PositionRegistersCountModuloTheirWidth :
    (st [] bytesF).posWidth = none ∧ { st [] bytesF with posWidth := some 4 }.posWidth = some 4 ∧
    (st [] bytesF).halted = false ∧
    decode 256 (bytesF.drop 0) = .ok (.first (hd 0x400 0xFFA00000 0 0)) ∧
    (next? (step { st [] bytesF with posWidth := some 4 })).map (fun t => t.pstate) = some .streaming := by
  decide +kernel

/-- A First block is read; the host may write while the engine is fresh. -/
theorem witness_OnlyFirstWritesTheSettings :
    (st [] bytesF).halted = false ∧ decode 256 (bytesF.drop 0) = .ok (.first (hd 0x400 0xFFA00000 0 0)) ∧
    (next? (hostWriteThreshold 0 State.reset)).isSome = true ∧
    (next? (hostPresentInput bytesF State.reset)).isSome = true := by decide +kernel

theorem witness_AwaitingFirstActsAsStreaming :
    State.reset.pstate = .awaitingFirst ∧ (next? (step State.reset)).isSome = true := by decide +kernel

/-- Before an error and at an error. -/
theorem witness_ErrIsStickyAndMeansError :
    ((st [] headerBad.toList).err ≠ .none ↔ (st [] headerBad.toList).pstate = .error) ∧
    (next? (step (st [] headerBad.toList))).isSome = true ∧
    ((raise .capacity (st [] [])).err ≠ .none ↔ (raise .capacity (st [] [])).pstate = .error) ∧
    (next? (step (raise .capacity (st [] [])))).isSome = true := by decide +kernel

/-- The invariant holds in a state with a store and pending input. -/
theorem witness_Inv : Inv sData :=
  { store := by decide, opos := rfl, ipos := by decide, err := by decide, settings := by decide,
    drained := by decide, chunks := fun _ h => (by cases h), bytes := fun _ h => (by cases h) }

theorem witness_StepKeepsTheInvariant : Inv sData ∧ OutputShape sData ∧ ∃ t, step sData = .next t :=
  ⟨witness_Inv, ⟨[], by decide, by decide⟩, ⟨_, rfl⟩⟩

/-- A fresh engine with an input takes both writes of the host; a state in the middle of a run can be
reset. -/
theorem witness_ResetMeetsAndHostKeepsTheInvariant :
    Inv { State.reset with inp := bytesF } ∧ OutputShape { State.reset with inp := bytesF } ∧
    (next? (hostWriteThreshold 8 { State.reset with inp := bytesF })).isSome = true ∧
    (next? (hostPresentInput bytesT { State.reset with inp := bytesF })).isSome = true ∧
    (hostReset sData).inp = headerV.toList ++ payload16 :=
  ⟨{ store := by decide, opos := rfl, ipos := by decide, err := by decide, settings := fun _ => rfl,
     drained := by decide, chunks := fun _ h => (by cases h), bytes := fun _ h => (by cases h) },
   ⟨[], by decide, by decide⟩, by decide, by decide, rfl⟩

/-- One image and the terminator, as an input. -/
theorem witness_OwnOutputReadsWithoutChecksumOrTruncationError :
    (∀ im ∈ [Image.mk ⟨0xAD, 6, 0⟩ [c8, cF]], im.wf = true) ∧
    (st [] ([Image.mk ⟨0xAD, 6, 0⟩ [c8, cF]].flatMap Image.bytes ++ termBytes ⟨0xAD, 6, 0⟩)).halted = false ∧
    (st [] ([Image.mk ⟨0xAD, 6, 0⟩ [c8, cF]].flatMap Image.bytes ++ termBytes ⟨0xAD, 6, 0⟩)).err = .none := by
  decide

theorem witness_FirstCapturesTheSettings :
    (st [] []).cs = [] ∧ (st [c8, cF] []).cs ≠ [] ∧ Memory.wf (st [c8, cF] []).cs = true := by decide

theorem witness_FinalAndEosEndTheRun :
    Memory.wf (st [c8, cF] []).cs = true ∧ Memory.wf (st [] []).cs = true := by decide

/-- The payload reaches exactly to the end of the input. -/
theorem witness_IgnoreSkipsItsPayload :
    PayloadPresent (hd 0x100 0 16 0) (st [] payload16) ∧ PayloadPresent (hd 0x100 0 0 0) (st [] []) := by
  unfold PayloadPresent; decide

/-- One byte more than there is (also for `IgnoreSkipsItsPayload`). -/
theorem witness_MissingPayloadHasNoEffect : ¬ PayloadPresent (hd 0 0 17 0) (st [] payload16) := by
  unfold PayloadPresent; decide

/-- Bounds that are just met: one record of one, sixteen bytes of sixteen. -/
def sBound : State := { st [] payload16 with maxChunks := some 1, maxDataBytes := some 16 }

theorem room_sBound : RoomForChunk sBound ∧ RoomForBytes 16 sBound := by
  refine ⟨fun n h => ?_, fun _ m h => ?_⟩ <;> cases h <;> decide

theorem witness_LiteralBlockAppendsAChunk :
    (NoMatch (hd 0 0x1000 16 0) sBound.cs ∧ wellFormed 256 (.data (hd 0 0x1000 16 0)) = true ∧
      wellFormed 256 (.xdata (hd 0x001 0x1000 16 0)) = true) ∧
    PayloadPresent (hd 0 0x1000 16 0) sBound ∧ RoomForChunk sBound ∧ RoomForBytes 16 sBound :=
  ⟨⟨by simp [NoMatch, sBound, st], by decide, by decide⟩, by unfold PayloadPresent; decide, room_sBound⟩

theorem witness_XdataInitAppendsAndFlushes :
    wellFormed 256 (.xdataInit (hd 0x080 0x1000 16 0)) = true ∧ Memory.wf sBound.cs = true ∧
    PayloadPresent (hd 0x080 0x1000 16 0) sBound ∧ RoomForChunk sBound ∧ RoomForBytes 16 sBound :=
  ⟨by decide, by decide, by unfold PayloadPresent; decide, room_sBound⟩

/-- Two records before the match: a Fill record that holds the address, and one that ends below it. -/
def pre2 : List Chunk := [⟨0x1000, 0, 0x010, 0x100, none⟩, ⟨0xFF0, 0, 0, 4, some [1, 2, 3, 4]⟩]

theorem firstMatch_c8 (h : Header) (ha : h.addr = 0x1006 ∨ h.addr = 0x1008) : FirstMatch h pre2 c8 := by
  constructor
  · intro c hc
    simp only [pre2, List.mem_cons, List.not_mem_nil, or_false] at hc
    rcases hc with rfl | rfl
    · exact fun hm => absurd hm.1 (by decide)
    · intro hm
      have := hm.2.2
      rcases ha with ha | ha <;> rw [ha] at this <;> exact absurd this (by decide)
  · rcases ha with ha | ha <;> exact ⟨by decide, by rw [ha]; decide, by rw [ha]; decide⟩

/-- V-CS-7 behind two records, and a start at the inclusive end of the chunk. -/
theorem witness_DataExtendsTheFirstMatch : ∀ a ∈ [(0x1006 : Word), 0x1008],
    wellFormed 256 (.data (hd 0 a 4 0)) = true ∧
    PayloadPresent (hd 0 a 4 0) (st (pre2 ++ c8 :: []) payload16) ∧
    FirstMatch (hd 0 a 4 0) pre2 c8 ∧ HasBuffer c8 [1, 2, 3, 4, 5, 6, 7, 8] ∧
    0x1000 + 8 < a.toNat + 4 ∧ a.toNat + 4 < 0x1000 + 2 ^ 32 ∧
    RoomForBytes (a.toNat + 4 - 0x1008) (st (pre2 ++ c8 :: []) payload16) := by
  intro a ha
  simp only [List.mem_cons, List.not_mem_nil, or_false] at ha
  rcases ha with rfl | rfl
  · exact ⟨by decide, by unfold PayloadPresent; decide, firstMatch_c8 _ (.inl rfl), ⟨rfl, rfl⟩, by decide, by decide,
      fun _ _ h => (by cases h)⟩
  · exact ⟨by decide, by unfold PayloadPresent; decide, firstMatch_c8 _ (.inr rfl), ⟨rfl, rfl⟩, by decide, by decide,
      fun _ _ h => (by cases h)⟩

/-- A block that ends exactly where the chunk ends, and an empty one at its inclusive end. -/
theorem witness_CoveredWriteIsDiscarded :
    (FirstMatch (hd 0 0x1006 2 0) pre2 c8 ∧ 0x1006 + 2 ≤ 0x1000 + 8 ∧
      wellFormed 256 (.data (hd 0 0x1006 2 0)) = true ∧
      PayloadPresent (hd 0 0x1006 2 0) (st (pre2 ++ c8 :: []) payload16)) ∧
    (FirstMatch (hd 0x010 0x1008 0 0) pre2 c8 ∧ 0x1008 + 0 ≤ 0x1000 + 8 ∧
      wellFormed 256 (.fillS (hd 0x010 0x1008 0 0)) = true) :=
  ⟨⟨firstMatch_c8 _ (.inl rfl), by decide, by decide, by unfold PayloadPresent; decide⟩,
   ⟨firstMatch_c8 _ (.inr rfl), by decide, by decide⟩⟩

/-- At the threshold (256), and at a remainder (V-CS-5). -/
theorem witness_SmallFillUnrollsIntoANewChunk : ∀ n ∈ [(256 : Word), 6],
    wellFormed 256 (.fillS (hd 0x010 0x2000 n 1)) = true ∧ NoMatch (hd 0x010 0x2000 n 1) (st [] []).cs ∧
    RoomForChunk (st [] []) ∧ RoomForBytes n.toNat (st [] []) := by
  intro n hn
  refine ⟨?_, by simp [NoMatch, st], fun _ h => (by cases h), fun _ _ h => (by cases h)⟩
  simp only [List.mem_cons, List.not_mem_nil, or_false] at hn
  rcases hn with rfl | rfl <;> decide

/-- V-CS-8 (c): offset 6, five bytes over, remainder 3. -/
theorem witness_SmallFillExtendsTheFirstMatch :
    wellFormed 256 (.fillS (hd 0x010 0x1006 7 0xDDCCBBAA)) = true ∧
    FirstMatch (hd 0x010 0x1006 7 0xDDCCBBAA) pre2 c8 ∧ HasBuffer c8 [1, 2, 3, 4, 5, 6, 7, 8] ∧
    6 = 0x1006 - 0x1000 ∧ 5 = 0x1006 + 7 - (0x1000 + 8) ∧ 0 < 5 ∧ 0x1006 + 7 < 0x1000 + 2 ^ 32 ∧
    RoomForBytes 5 (st (pre2 ++ c8 :: []) []) :=
  ⟨by decide, firstMatch_c8 _ (.inl rfl), ⟨rfl, rfl⟩, by decide, by decide, by decide, by decide,
    fun _ _ h => (by cases h)⟩

/-- One above the threshold; a small `XFILL`. -/
theorem witness_LargeFillAndXfillAppendAFillChunk :
    wellFormed 256 (.fillL (hd 0x010 0x2100 257 0)) = true ∧ wellFormed 256 (.xfill (hd 0x011 0 8 0)) = true ∧
    RoomForChunk sBound ∧ ¬ RoomForChunk { sBound with cs := [c8] } :=
  ⟨by decide, by decide, room_sBound.1, fun h => absurd (h 1 rfl) (by decide)⟩

theorem witness_XfillInitAppendsAndFlushes :
    wellFormed 256 (.xfillInit (hd 0x090 0 0 0)) = true ∧ Memory.wf sBound.cs = true ∧ RoomForChunk sBound :=
  ⟨by decide, by decide, room_sBound.1⟩

/-- The first clause: a store that is just full, and one with no place at all. -/
theorem witness_NoRoomForARecord :
    wellFormed 256 (.xdata (hd 0x001 0 16 0)) = true ∧
    (Instr.xdata (hd 0x001 0 16 0)).payloadLength ≤ payload16.length - 0 ∧
    ¬ MayMerge 256 (hd 0x001 0 16 0) ∧ 1 ≤ [c8].length ∧
    wellFormed 256 (.fillS (hd 0x010 0 4 0)) = true ∧ NoMatch (hd 0x010 0 4 0) [] ∧ 0 ≤ ([] : List Chunk).length :=
  ⟨by decide, by decide, fun h => absurd h.1 (by decide), by decide, by decide, by simp [NoMatch], by decide⟩

/-- The second clause: one byte too many. -/
theorem witness_NoRoomForBytes :
    wellFormed 256 (.data (hd 0 0 1 0)) = true ∧ (Instr.data (hd 0 0 1 0)).payloadLength ≤ payload16.length - 0 ∧
    NoMatch (hd 0 0 1 0) [c8] ∧ 0 < (hd 0 0 1 0).count.toNat ∧ 8 < dataBytes [c8] + 1 :=
  ⟨by decide, by decide, by intro c hc; simp only [List.mem_cons, List.not_mem_nil, or_false] at hc; subst hc
                            exact fun h => absurd h.2.1 (by decide), by decide, by decide⟩

/-- The third clause, by bytes: a growth of two with room for one. -/
theorem witness_NoRoomToGrow :
    wellFormed 256 (.data (hd 0 0x1006 4 0)) = true ∧ FirstMatch (hd 0 0x1006 4 0) pre2 c8 ∧
    0x1000 + 8 < 0x1006 + 4 ∧ 13 < dataBytes (pre2 ++ c8 :: []) + (0x1006 + 4 - (0x1000 + 8)) :=
  ⟨by decide, firstMatch_c8 _ (.inl rfl), by decide, by decide⟩

/-- The third clause, by length (V-CS-17): a length that would reach `2^32` exactly. -/
theorem witness_LengthReachesTheBound :
    wellFormed 0xFFFFFFFF (.fillS (hd 0x010 0xFFFFFFF0 0x10 0)) = true ∧
    FirstMatch (hd 0x010 0xFFFFFFF0 0x10 0) [] ⟨0, 0, 0, 0xFFFFFFF0, none⟩ ∧
    0 + 0xFFFFFFF0 < 0xFFFFFFF0 + 0x10 ∧ 0 + 2 ^ 32 ≤ 0xFFFFFFF0 + 0x10 :=
  ⟨by decide, ⟨by simp [NoMatch], by decide, by decide, by decide⟩, by decide, by decide⟩

theorem witness_EmittedFormsSelectTheirFields : c8.wf = true ∧ cF.wf = true := by decide

theorem witness_FlushWritesTheImage : Memory.wf (st [c8, cF] []).cs = true := by decide

/-- The append case: a block that nothing matches, and one that may not merge though a record matches. -/
theorem witness_MergeAppendsARecord :
    (NoMatch (hd 0 0x2000 4 0) [c8] ∧ wellFormed 256 (.data (hd 0 0x2000 4 0)) = true ∧
      ∃ t, exec (.data (hd 0 0x2000 4 0)) (st [c8] payload16) = .next t ∧ t.pstate ≠ .error) ∧
    (¬ MayMerge 256 (hd 0x001 0x1006 4 0) ∧ wellFormed 256 (.xdata (hd 0x001 0x1006 4 0)) = true ∧
      ∃ t, exec (.xdata (hd 0x001 0x1006 4 0)) (st [c8] payload16) = .next t ∧ t.pstate ≠ .error) :=
  ⟨⟨by intro c hc; simp only [List.mem_cons, List.not_mem_nil, or_false] at hc; subst hc
       exact fun h => absurd h.2.2 (by decide), by decide, _, rfl, by decide⟩,
   ⟨fun h => absurd h.1 (by decide), by decide, _, rfl, by decide⟩⟩

/-- A block without error: the hypotheses of the statements on what the merger leaves alone, with a
first match behind two records. -/
theorem witness_MergeTouchesAtMostOneRecord :
    MayMerge 256 (hd 0 0x1006 4 0) ∧ FirstMatch (hd 0 0x1006 4 0) pre2 c8 ∧
    wellFormed 256 (.data (hd 0 0x1006 4 0)) = true ∧ Memory.wf (pre2 ++ c8 :: []) = true ∧
    (∃ t, exec (.data (hd 0 0x1006 4 0)) (st (pre2 ++ c8 :: []) payload16) = .next t ∧ t.pstate ≠ .error) ∧
    (pre2 ++ c8 :: [])[2]? = some c8 ∧ c8.data = some [1, 2, 3, 4, 5, 6, 7, 8] ∧
    (pre2 ++ c8 :: [])[0]? = some ⟨0x1000, 0, 0x010, 0x100, none⟩ ∧ (0x010 : Flags) &&& 0x010 ≠ 0 :=
  ⟨⟨by decide, by decide⟩, firstMatch_c8 _ (.inl rfl), by decide, by decide, ⟨_, rfl, by decide⟩, by decide,
   by decide, by decide, by decide⟩

/-- Two headers that differ only in the fields that `DATA` ignores (R80). -/
theorem witness_IgnoredFieldsHaveNoEffect :
    (⟨6, 0, 0xAD, 1, 2, 3⟩ : Header).flags = (⟨9, 0, 0x77, 1, 2, 3⟩ : Header).flags ∧
    (⟨6, 0, 0xAD, 1, 2, 3⟩ : Header).addr = (⟨9, 0, 0x77, 1, 2, 3⟩ : Header).addr ∧
    (⟨6, 0, 0xAD, 1, 2, 3⟩ : Header).count = (⟨9, 0, 0x77, 1, 2, 3⟩ : Header).count ∧
    (⟨6, 0, 0xAD, 1, 2, 3⟩ : Header).arg = (⟨9, 0, 0x77, 1, 2, 3⟩ : Header).arg := by decide

end Sys2Proof.Tests
end

namespace Sys2Proof.Machine

/-! ### What a step appends to the output and how far it advances the input -/

/-- The bytes a step has appended to `OUT` (R42): `opos` counts them, and `POS_W` stays. -/
def Appends (s t : State) (bs : List Byte) : Prop :=
  t.posWidth = s.posWidth ∧ t.out = s.out ++ bs ∧ t.opos = s.opos + bs.length

/-- Where neither the output side nor the width has moved, nothing was appended. -/
theorem appends_nil {s t : State} (hw : t.posWidth = s.posWidth) (hout : t.out = s.out)
    (hopos : t.opos = s.opos) : Appends s t [] :=
  ⟨hw, by simp [hout], hopos⟩

theorem fetchEffect_appends {s t : State} (h : FetchEffect s t) : ∃ bs, Appends s t bs := by
  rcases h with ⟨-, rfl⟩ | ⟨-, -, -, rfl⟩ | ⟨-, -, -, -, rfl⟩ | ⟨B, r, -, -, -, rfl⟩
  · exact ⟨[], appends_nil rfl rfl rfl⟩
  · obtain ⟨e, x, bs, hf⟩ := finishRun_frame s
    exact ⟨bs, by rw [hf]; exact ⟨rfl, rfl, rfl⟩⟩
  · exact ⟨[], appends_nil rfl rfl rfl⟩
  · exact ⟨[], appends_nil rfl rfl rfl⟩

theorem blockEffect_appends {i : Instr} {hd : Header} {s t : State} (h : BlockEffect i hd s t) :
    ∃ bs, Appends s t bs := by
  rcases h with ⟨-, -, x, rfl⟩ | ⟨e, x, bs, k, w, ⟨-, -, rfl⟩ | ⟨-, -, rfl⟩ | ⟨-, -, -, ht⟩⟩
  · exact ⟨[], appends_nil rfl rfl rfl⟩
  · exact ⟨bs, rfl, rfl, rfl⟩
  · exact ⟨bs, rfl, rfl, rfl⟩
  · exact ⟨bs, by rw [ht]; exact ⟨rfl, rfl, rfl⟩⟩

/-- `OUT` is append-only and `opos` counts its bytes (R21, R42); no step writes `POS_W` (R1). -/
theorem step_appends {s t : State} (h : step s = .next t) : ∃ bs, Appends s t bs := by
  rcases step_frame h with hF | ⟨B, r, i, -, hB⟩
  · exact fetchEffect_appends hF
  · obtain ⟨bs, hwidth, hout, hopos⟩ := blockEffect_appends hB
    exact ⟨bs, hwidth, hout, hopos⟩

/-- A block that takes no error consumes its payload (R76), `FIRST` and `FINAL` having none. -/
theorem blockEffect_ipos {i : Instr} {hd : Header} {s t : State} (h : BlockEffect i hd s t)
    (hne : t.pstate ≠ .error) : t.ipos = s.ipos + i.payloadLength := by
  rcases h with ⟨-, -, x, rfl⟩ | ⟨e, x, bs, k, w, ⟨rfl, -, rfl⟩ | ⟨rfl, -, rfl⟩ | ⟨-, -, -, ht⟩⟩
  · exact absurd rfl hne
  · rfl
  · rfl
  · rw [ht]

/-- The advance of `ipos` over what the unread input decodes to: nothing for `EOS`, which has no bytes
(R68), else the header and the payload (R20, R76). -/
theorem step_ipos {s t : State} (h : step s = .next t) {i : Instr} (hrun : s.halted = false)
    (hd : decode s.fillThreshold (unread s) = .ok i) (hne : t.pstate ≠ .error) :
    t.ipos = s.ipos + (if i = .eos then 0 else 16 + i.payloadLength) := by
  rcases step_frame h with hF | ⟨B, r, j, hF, hB⟩
  · rcases hF with ⟨hh, -⟩ | ⟨-, -, he, rfl⟩ | ⟨-, -, -, -, rfl⟩ | ⟨B, r, -, -, -, rfl⟩
    · simp [hrun] at hh
    · obtain rfl : i = .eos := by simpa [he] using hd.symm
      obtain ⟨e, x, bs, hf⟩ := finishRun_frame s
      rw [hf, if_pos rfl, Nat.add_zero]
    · exact absurd rfl hne
    · exact absurd rfl hne
  · obtain rfl : j = i := by simpa [hF.decoded] using hd
    rw [if_neg hF.ne_eos, blockEffect_ipos hB hne, decoded, Nat.add_assoc]

/-! ### What the host reads of the positions (R33) -/

theorem status_ipos_unbounded {s : State} (h : s.posWidth = none) : s.status.ipos = s.ipos := by
  simp [State.status, State.iposRegister, h, posWrap_none]

theorem status_opos_unbounded {s : State} (h : s.posWidth = none) : s.status.opos = s.opos := by
  simp [State.status, State.oposRegister, h, posWrap_none]

theorem status_ipos_of_width {s : State} {w : Nat} (h : s.posWidth = some w) :
    s.status.ipos = s.ipos % 2 ^ w := by
  simp [State.status, State.iposRegister, h, posWrap]

theorem status_opos_of_width {s : State} {w : Nat} (h : s.posWidth = some w) :
    s.status.opos = s.opos % 2 ^ w := by
  simp [State.status, State.oposRegister, h, posWrap]

/-- Settles O49: the positions advance unreduced, and reducing the old register first changes nothing
modulo `2 ^ w`. -/
theorem positionRegistersCountModuloTheirWidth : Obligations.PositionRegistersCountModuloTheirWidth := by
  unfold Obligations.PositionRegistersCountModuloTheirWidth
  refine ⟨fun s h => ⟨status_ipos_unbounded h, status_opos_unbounded h⟩, fun s t w hs h => ?_⟩
  obtain ⟨bs, hwidth, hout, hopos⟩ := step_appends h
  have ht : t.posWidth = some w := hwidth.trans hs
  rw [status_ipos_of_width hs, status_opos_of_width hs, status_ipos_of_width ht, status_opos_of_width ht]
  refine ⟨ht, posWrap_lt w t.ipos, posWrap_lt w t.opos, fun i hrun hd hne => ?_, bs, hout, ?_⟩
  · rw [step_ipos h hrun hd hne, Nat.mod_add_mod]
  · rw [hopos, Nat.mod_add_mod]

end Sys2Proof.Machine

namespace Sys2Proof.Machine

/-! ### What keeps the invariant (R19, R21, R24, R156)

One lemma per way a step can move the state; the step's own proof only picks the case. -/

theorem FatalError.code_ne_none (x : FatalError) : x.code ≠ .none := by
  cases x <;> simp [FatalError.code]

/-- A running engine has taken no error, where `ERR` and `PSTATE` agree (R24). -/
theorem err_none_of_running {s : State} (hagree : s.err ≠ .none ↔ s.pstate = .error)
    (hr : s.halted = false) : s.err = .none := by
  by_contra h
  exact ((halted_eq_false_iff s).1 hr).2 (hagree.1 h)

/-- Taking an error writes `ERR` and `PSTATE` together (R196). -/
theorem Inv.raise {s : State} (hi : Inv s) (x : FatalError) : Inv (raise x s) where
  store := hi.store
  opos := hi.opos
  ipos := hi.ipos
  err := ⟨fun _ => rfl, fun _ => x.code_ne_none⟩
  settings := fun h => by cases h
  drained := fun h => by cases h
  chunks := hi.chunks
  bytes := hi.bytes

/-- Consuming input that is there moves no other clause (R41). -/
theorem Inv.inSkip {s : State} (hi : Inv s) {n : Nat} (hn : s.ipos + n ≤ s.inp.length) : Inv (inSkip n s) :=
  { hi with ipos := hn }

/-- No clause speaks of `H` or `XACC`. -/
theorem Inv.latched {s : State} (hi : Inv s) (B : Bytes16) (x : Byte) : Inv { s with h := B, xacc := x } :=
  { hi with }

/-- The state after `DECODE` has read sixteen bytes, whatever their XOR (R92). -/
theorem Inv.afterHeader {s : State} (hi : Inv s) {B : Bytes16} {r : List Byte} (x : Byte)
    (hu : unread s = B.toList ++ r) : Inv { s with h := B, xacc := x, ipos := s.ipos + 16 } := by
  have hlen : 16 ≤ (unread s).length := by simp [hu]
  rw [unread_def, List.length_drop] at hlen
  exact (hi.inSkip (n := 16) (by have := hi.ipos; omega)).latched B x

/-- Writing out the store and emptying it, as every flush and termination does (R170, R179), with the
settings and the parser state that follow. -/
theorem Inv.emptied {s : State} (hi : Inv s) (hr : s.halted = false) (e : Bytes16) (x : Byte)
    (bs : List Byte) {st : ImageSettings} {p : PState} (hp : p ≠ .error)
    (hst : p = .awaitingFirst → st = ⟨0, 0, 0⟩) :
    Inv { s with e := e, xacc := x, cs := [], out := s.out ++ bs, opos := s.opos + bs.length,
                 is := st, pstate := p } where
  store := rfl
  opos := by simp [hi.opos]
  ipos := hi.ipos
  err := by simp [err_none_of_running hi.err hr, hp]
  settings := hst
  drained := fun _ => rfl
  chunks := fun n _ => Nat.zero_le n
  bytes := fun m _ => Nat.zero_le m

theorem Inv.finishRun {s : State} (hi : Inv s) (hr : s.halted = false) : Inv (finishRun s) := by
  obtain ⟨e, x, bs, hf⟩ := finishRun_frame s
  rw [hf]
  exact hi.emptied hr e x bs (by simp) (by simp)

/-- A merge that takes no error, its payload present (R142, R156, R158 item 1). -/
theorem Inv.merged {hd : Header} {s u : State} (hi : Inv s) (hr : s.halted = false)
    (h : merge hd s = .ok u) (hd00 : hd.flags &&& 0xD00 = 0)
    (hp : hd.isFill = false → PayloadPresent hd s) : Inv u := by
  have hstore := merge_wf h hd00 hp hi.store
  obtain ⟨hchunks, hbytes⟩ := merge_capacity h hi.store hd00 hp hi.chunks hi.bytes
  have hipos : u.ipos ≤ s.inp.length := by
    rw [merge_ipos h]
    have := hi.ipos
    cases hf : hd.isFill
    · have : hd.count.toNat ≤ s.inp.length - s.ipos := hp hf
      simp only [Bool.false_eq_true, if_false]; omega
    · simpa using this
  rw [merge_frame h]
  exact ⟨hstore, hi.opos, hipos, hi.err, hi.settings,
    fun hdone => absurd hdone ((halted_eq_false_iff s).1 hr).1, hchunks, hbytes⟩

/-- A merge does not end the run. -/
theorem merge_halted {hd : Header} {s u : State} (h : merge hd s = .ok u) : u.halted = s.halted := by
  rw [merge_frame h]; rfl

theorem Inv.initFlush {s : State} (hi : Inv s) (hr : s.halted = false) (hd : Header) :
    Inv (initFlush hd s) := by
  unfold Machine.initFlush
  split_ifs
  · obtain ⟨e, x, bs, hf⟩ := flush_frame s
    rw [hf]
    exact hi.emptied hr e x bs ((halted_eq_false_iff s).1 hr).2 hi.settings
  · exact hi

/-- A block of the input keeps the invariant, class by class. -/
theorem Inv.exec {thr : Word} {hd : Header} {i : Instr} {s t : State} (hi : Inv s) (hr : s.halted = false)
    (hh : i.header? = some hd) (hw : wellFormed thr i = true) (h : exec i s = .next t) : Inv t := by
  rcases exec_cases hd i hh s with
    ⟨-, he⟩ | ⟨-, he⟩ | ⟨-, -, ⟨x, he⟩ | ⟨-, hp, he⟩ | ⟨hc, u, hp, hm, he⟩ | ⟨hc, u, hm, he⟩⟩
  all_goals obtain rfl := Host.Outcome.next.inj (he.symm.trans h)
  · obtain ⟨e, x, bs, hf⟩ := flushIfAny_frame s
    rw [hf]
    exact hi.emptied hr e x bs (by simp) (by simp)
  · exact hi.finishRun hr
  · exact hi.raise x
  · have : hd.count.toNat ≤ s.inp.length - s.ipos := hp
    exact hi.inSkip (by have := hi.ipos; omega)
  · have hu := hi.merged hr hm (wellFormed_literal hc hw).2 fun _ => hp
    exact hu.initFlush ((merge_halted hm).trans hr) hd
  · obtain ⟨hfill, hd00⟩ := wellFormed_fill hc hw
    have hu := hi.merged hr hm hd00 fun hf => by simp [hfill] at hf
    exact hu.initFlush ((merge_halted hm).trans hr) hd

theorem Inv.fetchEffect {s t : State} (hi : Inv s) (h : FetchEffect s t) : Inv t := by
  rcases h with ⟨-, rfl⟩ | ⟨hr, -, -, rfl⟩ | ⟨-, -, -, -, rfl⟩ | ⟨B, r, -, hu, -, rfl⟩
  · exact hi
  · exact hi.finishRun hr
  · exact hi.raise _
  · exact (hi.afterHeader _ hu).raise _

/-- Settles O24: the fetch and every class of block keep each clause. -/
theorem stepKeepsTheInvariant : Obligations.StepKeepsTheInvariant := by
  unfold Obligations.StepKeepsTheInvariant
  intro s t hi h
  obtain ⟨t', ht, hc⟩ := step_answers s
  obtain rfl : t' = t := Host.Outcome.next.inj (ht.symm.trans h)
  rcases hc with hF | ⟨B, r, i, hF, he⟩
  · exact hi.fetchEffect hF
  · exact (hi.afterHeader 0 hF.input).exec hF.running hF.header hF.wf he

/-! ### What a step leaves unchanged -/

@[simp] theorem decoded_ipos (B : Bytes16) (s : State) : (decoded B s).ipos = s.ipos + 16 := rfl
@[simp] theorem decoded_wOvw (B : Bytes16) (s : State) : (decoded B s).wOvw = s.wOvw := rfl

/-- What the host and the implementation settle: `IN`, the threshold and the OPEN parameters. -/
structure SameSetup (s t : State) : Prop where
  inp           : t.inp = s.inp
  fillThreshold : t.fillThreshold = s.fillThreshold
  maxChunks     : t.maxChunks = s.maxChunks
  maxDataBytes  : t.maxDataBytes = s.maxDataBytes
  posWidth      : t.posWidth = s.posWidth

/-- The frame of the fetch: it writes neither the settings nor the warning. -/
theorem fetchEffect_keeps {s t : State} (h : FetchEffect s t) :
    SameSetup s t ∧ s.ipos ≤ t.ipos ∧ t.is = s.is ∧ t.wOvw = s.wOvw := by
  have hsame : SameSetup s s := ⟨rfl, rfl, rfl, rfl, rfl⟩
  rcases h with ⟨-, rfl⟩ | ⟨-, -, -, rfl⟩ | ⟨-, -, -, -, rfl⟩ | ⟨B, r, -, -, -, rfl⟩
  · exact ⟨hsame, le_rfl, rfl, rfl⟩
  · obtain ⟨e, x, bs, hf⟩ := finishRun_frame s
    rw [hf]
    exact ⟨{ hsame with }, le_rfl, rfl, rfl⟩
  · exact ⟨{ hsame with }, le_rfl, rfl, rfl⟩
  · exact ⟨{ hsame with }, Nat.le_add_right _ _, rfl, rfl⟩

/-- The frame of a block: it writes no header register. -/
theorem blockEffect_keeps {i : Instr} {hd : Header} {s t : State} (h : BlockEffect i hd s t) :
    SameSetup s t ∧ s.ipos ≤ t.ipos ∧ t.h = s.h := by
  have hsame : SameSetup s s := ⟨rfl, rfl, rfl, rfl, rfl⟩
  rcases h with ⟨-, -, x, rfl⟩ | ⟨e, x, bs, k, w, ⟨-, -, rfl⟩ | ⟨-, -, rfl⟩ | ⟨-, -, -, ht⟩⟩
  · exact ⟨{ hsame with }, le_rfl, rfl⟩
  · exact ⟨{ hsame with }, le_rfl, rfl⟩
  · exact ⟨{ hsame with }, le_rfl, rfl⟩
  · rw [ht]
    exact ⟨{ hsame with }, Nat.le_add_right _ _, rfl⟩

/-! ### What a step does to `PSTATE` and `ERR` (R23, R24) -/

/-- The step has taken a fatal error (R196). -/
def TookError (t : State) : Prop := t.pstate = .error ∧ t.err ≠ .none

theorem tookError_raise (x : FatalError) (s : State) : TookError (raise x s) := ⟨rfl, x.code_ne_none⟩

/-- What the fetch alone does to `PSTATE` and `ERR`. -/
theorem fetchEffect_pstate {s t : State} (h : FetchEffect s t) :
    (s.halted = true ∧ t = s) ∨
    (s.halted = false ∧
      ((decode s.fillThreshold (unread s) = .ok .eos ∧ t.pstate = .done ∧ t.err = s.err) ∨
       ((∃ x, decode s.fillThreshold (unread s) = .error x) ∧ TookError t))) := by
  rcases h with h | ⟨hr, -, hd, rfl⟩ | ⟨hr, -, -, hd, rfl⟩ | ⟨B, r, hr, -, hd, rfl⟩
  · exact .inl h
  · obtain ⟨e, x, bs, hf⟩ := finishRun_frame s
    exact .inr ⟨hr, .inl ⟨hd, by rw [hf], by rw [hf]⟩⟩
  · exact .inr ⟨hr, .inr ⟨⟨_, hd⟩, tookError_raise _ _⟩⟩
  · exact .inr ⟨hr, .inr ⟨⟨_, hd⟩, tookError_raise _ _⟩⟩

/-- What a block does to `PSTATE` and `ERR`, by its class. -/
theorem blockEffect_pstate {i : Instr} {hd : Header} {s t : State} (h : BlockEffect i hd s t) :
    (i = .first hd ∧ t.pstate = .streaming ∧ t.err = s.err) ∨
    (i = .final hd ∧ t.pstate = .done ∧ t.err = s.err) ∨
    (i ≠ .first hd ∧ i ≠ .final hd ∧ ((t.pstate = s.pstate ∧ t.err = s.err) ∨ TookError t)) := by
  rcases h with ⟨h1, h2, x, rfl⟩ | ⟨e, x, bs, k, w, ⟨hi, -, rfl⟩ | ⟨hi, -, rfl⟩ | ⟨h1, h2, -, ht⟩⟩
  · exact .inr (.inr ⟨h1, h2, .inr (tookError_raise x s)⟩)
  · exact .inl ⟨hi, rfl, rfl⟩
  · exact .inr (.inl ⟨hi, rfl, rfl⟩)
  · exact .inr (.inr ⟨h1, h2, .inl ⟨by rw [ht], by rw [ht]⟩⟩)

/-- Settles O15, by what the fetch finds and, for a block, by its class. -/
theorem pstateFollowsTheTransitionList : Obligations.PstateFollowsTheTransitionList := by
  unfold Obligations.PstateFollowsTheTransitionList
  intro s t h
  rw [← unread_def]
  rcases step_frame h with hF | ⟨B, r, i, hF, hB⟩
  · rcases fetchEffect_pstate hF with ⟨hh, rfl⟩ | ⟨hr, ⟨hd, hp, -⟩ | ⟨⟨x, hd⟩, hp, -⟩⟩
    · exact ⟨fun _ => rfl, fun hr => by simp [hh] at hr⟩
    · exact ⟨fun hh => by simp [hr] at hh, fun _ => by rw [hd]; exact hp⟩
    · exact ⟨fun hh => by simp [hr] at hh, fun _ => by rw [hd]; exact hp⟩
  · refine ⟨fun hh => by simp [hF.running] at hh, fun _ => ?_⟩
    have hhead := hF.header
    have hne := hF.ne_eos
    rw [hF.decoded]
    rcases blockEffect_pstate hB with ⟨rfl, hp, -⟩ | ⟨rfl, hp, -⟩ | ⟨h1, h2, hk⟩
    · exact hp
    · exact hp
    · cases i
      case first => exact absurd (congrArg Instr.first (Option.some.inj hhead)) h1
      case final => exact absurd (congrArg Instr.final (Option.some.inj hhead)) h2
      case eos => exact absurd rfl hne
      all_goals exact hk

/-- A running engine's step takes an error, or leaves `ERR` and ends outside `Error`. -/
theorem step_err {s t : State} (h : step s = .next t) (hr : s.halted = false) :
    TookError t ∨ (t.pstate ≠ .error ∧ t.err = s.err) := by
  rcases step_frame h with hF | ⟨B, r, i, -, hB⟩
  · rcases fetchEffect_pstate hF with ⟨hh, -⟩ | ⟨-, ⟨-, hp, he⟩ | ⟨-, hk⟩⟩
    · simp [hr] at hh
    · exact .inr ⟨by simp [hp], he⟩
    · exact .inl hk
  · rcases blockEffect_pstate hB with ⟨-, hp, he⟩ | ⟨-, hp, he⟩ | ⟨-, -, ⟨hp, he⟩ | hk⟩
    · exact .inr ⟨by simp [hp], he⟩
    · exact .inr ⟨by simp [hp], he⟩
    · exact .inr ⟨by rw [hp]; exact ((halted_eq_false_iff s).1 hr).2, he⟩
    · exact .inl hk

theorem step_halted {s : State} (hh : s.halted = true) : step s = .next s := by
  simp [step, fetch, hh]

theorem step_of_halted {s t : State} (h : step s = .next t) (hh : s.halted = true) : t = s :=
  Host.Outcome.next.inj (h.symm.trans (step_halted hh))

/-- Settles O17: a halted engine moves nothing, and a running one has no error yet. -/
theorem errIsStickyAndMeansError : Obligations.ErrIsStickyAndMeansError := by
  unfold Obligations.ErrIsStickyAndMeansError
  refine ⟨rfl, rfl, rfl, rfl, fun s => ⟨rfl, by simp [hostReset, State.reset]⟩, fun s t hinv h => ?_⟩
  cases hh : s.halted
  · have hnone := err_none_of_running hinv hh
    refine ⟨?_, fun he => absurd hnone he⟩
    rcases step_err h hh with ⟨hp, he⟩ | ⟨hp, he⟩
    · exact ⟨fun _ => hp, fun _ => he⟩
    · exact ⟨fun hne => absurd (he.trans hnone) hne, fun hpe => absurd hpe hp⟩
  · obtain rfl := step_of_halted h hh
    exact ⟨hinv, fun _ => rfl⟩

/-! ### What the host's writes do (R28, R222) -/

theorem hostWriteThreshold_next {v : Word} {s t : State} (h : hostWriteThreshold v s = .next t) :
    s.fresh = true ∧ t = { s with fillThreshold := v } := by
  unfold hostWriteThreshold at h
  split_ifs at h with hf
  exact ⟨hf, (Host.Outcome.next.inj h).symm⟩

theorem hostPresentInput_next {bs : List Byte} {s t : State} (h : hostPresentInput bs s = .next t) :
    s.fresh = true ∧ t = { s with inp := bs } := by
  unfold hostPresentInput at h
  split_ifs at h with hf
  exact ⟨hf, (Host.Outcome.next.inj h).symm⟩

theorem fresh_iff (s : State) : s.fresh = true ↔ s.pstate = .awaitingFirst ∧ s.ipos = 0 := by
  simp [State.fresh]

/-! ### What a step does to `IS` (R29) -/

theorem blockEffect_is {i : Instr} {hd : Header} {s t : State} (h : BlockEffect i hd s t) :
    (i = .first hd ∧ t.is = ⟨hd.sig, hd.bcode, hd.addr⟩) ∨ (i ≠ .first hd ∧ t.is = s.is) := by
  rcases h with ⟨hn, -, x, rfl⟩ | ⟨e, x, bs, k, w, ⟨hi, -, rfl⟩ | ⟨rfl, -, rfl⟩ | ⟨hn, -, -, ht⟩⟩
  · exact .inr ⟨hn, rfl⟩
  · exact .inl ⟨hi, rfl⟩
  · exact .inr ⟨by simp, rfl⟩
  · exact .inr ⟨hn, by rw [ht]⟩

/-- Of what decodes, only `EOS` needs no more than the fetch. -/
theorem fetchEffect_eos {s t : State} (h : FetchEffect s t) (hr : s.halted = false) {i : Instr}
    (hd : decode s.fillThreshold (unread s) = .ok i) : i = .eos := by
  rcases fetchEffect_pstate h with ⟨hh, -⟩ | ⟨-, ⟨he, -⟩ | ⟨⟨x, he⟩, -⟩⟩
  · simp [hr] at hh
  · simpa [he] using hd.symm
  · simp [he] at hd

/-- Settles O18: of the blocks only a First block reaches `IS`, and the fetch never does. -/
theorem onlyFirstWritesTheSettings : Obligations.OnlyFirstWritesTheSettings := by
  unfold Obligations.OnlyFirstWritesTheSettings
  refine ⟨fun s t h => ?_, fun s => ⟨?_, rfl⟩, fun s t v bs h => ?_⟩
  · rw [← unread_def]
    rcases step_frame h with hF | ⟨B, r, i, hF, hB⟩
    · obtain ⟨-, -, his, -⟩ := fetchEffect_keeps hF
      refine ⟨fun hd hr hdec => ?_, fun hne => absurd his hne⟩
      cases fetchEffect_eos hF hr hdec
    · rcases blockEffect_is hB with ⟨rfl, his⟩ | ⟨hn, his⟩
      · refine ⟨fun hd _ hdec => ?_, fun _ => ⟨_, hF.running, hF.decoded⟩⟩
        obtain rfl : unpack B = hd := by simpa [hF.decoded] using hdec
        exact his
      · refine ⟨fun hd _ hdec => absurd ?_ hn, fun hne => absurd his hne⟩
        obtain rfl : i = .first hd := by simpa [hF.decoded] using hdec
        exact congrArg Instr.first (Option.some.inj hF.header)
  · obtain ⟨e, x, bs, hf⟩ := flush_frame s
    rw [hf]
  · rcases h with h | h
    · rw [(hostWriteThreshold_next h).2]
    · rw [(hostPresentInput_next h).2]

/-! ### The warning (R27, R155) -/

/-- A new record is empty, so a covered write of at least one byte goes to the first match. -/
theorem firstMatch_of_covered {hd : Header} {s : State} {tg : Target} (ht : mergeTarget hd s = .ok tg)
    (hn : hd.count ≠ 0) (hc : hd.endAddr ≤ tg.chunk.endAddr) :
    MayMerge s.fillThreshold hd ∧ s.cs = tg.pre ++ tg.chunk :: tg.post ∧
      FirstMatch hd tg.pre tg.chunk := by
  rcases mergeTarget_cases hd s with ⟨t', ht', hm⟩ | ⟨-, ⟨-, he⟩ | ⟨-, ht'⟩⟩
  · obtain rfl : t' = tg := by simpa [ht'] using ht
    exact hm
  · simp [he] at ht
  · obtain rfl : _ = tg := by simpa [ht'] using ht
    have hz : hd.count.toNat = 0 := by simpa [Header.endAddr, Chunk.endAddr] using hc
    exact absurd (BitVec.eq_of_toNat_eq hz) hn

/-- The blocks that merge rules 1 and 2 let scan are `DATA` and `FILL.S` (R143, R144). -/
theorem classify_of_mayMerge {thr : Word} {hd : Header} (h : MayMerge thr hd) :
    classify thr hd = .data hd ∨ classify thr hd = .fillS hd := by
  obtain ⟨hf, hlarge⟩ := h
  rcases (flags_FEF hd.flags).1 hf with h0 | h0
  · exact .inl (by simp [classify, h0])
  · have hle : ¬ thr.toNat < hd.count.toNat := fun hlt => hlarge ⟨h0, hlt⟩
    exact .inr (by simp [classify, h0, hle])

theorem blockEffect_wOvw {i : Instr} {hd : Header} {s t : State} (h : BlockEffect i hd s t) :
    t.wOvw = s.wOvw ∨
    (t.wOvw = true ∧ hd.count ≠ 0 ∧ ∃ tg, mergeTarget hd s = .ok tg ∧ hd.endAddr ≤ tg.chunk.endAddr) := by
  rcases h with ⟨-, -, x, rfl⟩ | ⟨e, x, bs, k, w, ⟨-, -, rfl⟩ | ⟨-, -, rfl⟩ | ⟨-, -, hw, ht⟩⟩
  · exact .inl rfl
  · exact .inl rfl
  · exact .inl rfl
  · rw [ht]
    exact hw.imp id fun ⟨hset, hn, _, hc⟩ => ⟨hset, hn, hc⟩

/-- Settles O19: what sets the warning is a covered write, which only the two classes that scan can
make. -/
theorem overwriteWarningOnlyFromCoveredWrite : Obligations.OverwriteWarningOnlyFromCoveredWrite := by
  unfold Obligations.OverwriteWarningOnlyFromCoveredWrite
  intro s t h
  rw [← unread_def]
  rcases step_frame h with hF | ⟨B, r, i, hF, hB⟩
  · obtain ⟨-, -, -, hw⟩ := fetchEffect_keeps hF
    exact ⟨fun hs => hw.trans hs, fun hs ht => by simp [hw, hs] at ht⟩
  · rcases blockEffect_wOvw hB with hw | ⟨hset, hn, tg, htg, hc⟩
    · rw [decoded_wOvw] at hw
      exact ⟨fun hs => hw.trans hs, fun hs ht => by simp [hw, hs] at ht⟩
    · refine ⟨fun _ => hset, fun _ _ => ?_⟩
      obtain ⟨hmay, hcs, hmatch⟩ := firstMatch_of_covered htg hn hc
      refine ⟨unpack B, tg.pre, tg.post, tg.chunk, ?_, hn, hcs, hmatch, hc⟩
      rw [hF.decoded, hF.isClass, Except.ok.injEq, Except.ok.injEq]
      exact classify_of_mayMerge hmay

/-! ### The header register (R10) -/

/-- A step reads no header and leaves `H`, or reads one and puts it there. -/
theorem step_h {s t : State} (h : step s = .next t) :
    ((s.halted = true ∨ (unread s).length < 16) ∧ t.h = s.h) ∨
    (s.halted = false ∧ ∃ B r, unread s = B.toList ++ r ∧ t.h = B) := by
  rcases step_frame h with
    (⟨hh, rfl⟩ | ⟨-, hu, -, rfl⟩ | ⟨-, -, hl, -, rfl⟩ | ⟨B, r, hr, hu, -, rfl⟩) | ⟨B, r, i, hF, hB⟩
  · exact .inl ⟨.inl hh, rfl⟩
  · obtain ⟨e, x, bs, hf⟩ := finishRun_frame s
    exact .inl ⟨.inr (by simp [hu]), by rw [hf]⟩
  · exact .inl ⟨.inr hl, rfl⟩
  · exact .inr ⟨hr, B, r, hu, rfl⟩
  · obtain ⟨-, -, hkeep⟩ := blockEffect_keeps hB
    exact .inr ⟨hF.running, B, r, hF.input, hkeep⟩

/-- The header at the start of a stream is its first sixteen bytes. -/
theorem toList_append_inj {B C : Bytes16} {r q : List Byte} (h : B.toList ++ r = C.toList ++ q) : B = C := by
  simpa using congrArg Bytes16.ofPrefix h

/-- Settles O21: nothing after `DECODE` writes `H`. -/
theorem headerRegisterHoldsTheLastHeader : Obligations.HeaderRegisterHoldsTheLastHeader := by
  unfold Obligations.HeaderRegisterHoldsTheLastHeader
  intro s t h
  have hlen : (unread s).length = s.inp.length - s.ipos := List.length_drop
  rw [← unread_def, ← hlen]
  rcases step_h h with ⟨hnone, hkeep⟩ | ⟨hr, C, q, hu, hread⟩
  · refine ⟨fun B r hr hu => ?_, fun _ => hkeep⟩
    rcases hnone with hh | hshort
    · simp [hr] at hh
    · simp [hu] at hshort
  · refine ⟨fun B r _ hu' => hread.trans (toList_append_inj (hu.symm.trans hu')), fun hno => ?_⟩
    rcases hno with hh | hshort
    · simp [hr] at hh
    · simp [hu] at hshort

/-! ### The input position (R20, R40) -/

theorem step_keeps {s t : State} (h : step s = .next t) : SameSetup s t ∧ s.ipos ≤ t.ipos := by
  rcases step_frame h with hF | ⟨B, r, i, -, hB⟩
  · obtain ⟨hsame, hle, -, -⟩ := fetchEffect_keeps hF
    exact ⟨hsame, hle⟩
  · obtain ⟨hsame, hle, -⟩ := blockEffect_keeps hB
    exact ⟨{ hsame with }, (Nat.le_add_right _ 16).trans hle⟩

/-- Settles O22: the frame of a step, and the advance over the decoded block. -/
theorem inputPositionAdvancesByTheBlock : Obligations.InputPositionAdvancesByTheBlock := by
  unfold Obligations.InputPositionAdvancesByTheBlock
  intro s t h
  obtain ⟨⟨hinp, hthr, hchunks, hbytes, hwidth⟩, hle⟩ := step_keeps h
  exact ⟨hinp, hthr, hchunks, hbytes, hwidth, hle, fun i hr hd hne => step_ipos h hr hd hne⟩

/-! ### The window for the host's writes (R28, R233) -/

/-- A step halts the engine or consumes a header. -/
theorem step_closes_window {s t : State} (h : step s = .next t) : t.fresh = false := by
  rw [← Bool.not_eq_true, fresh_iff]
  rintro ⟨hp, h0⟩
  rcases step_frame h with hF | ⟨B, r, i, -, hB⟩
  · rcases fetchEffect_pstate hF with ⟨hh, rfl⟩ | ⟨-, ⟨-, hdone, -⟩ | ⟨-, herr, -⟩⟩
    · simp [halted_iff, hp] at hh
    · simp [hp] at hdone
    · simp [hp] at herr
  · obtain ⟨-, hle, -⟩ := blockEffect_keeps hB
    rw [decoded_ipos] at hle
    omega

/-- Settles O29: a reset engine is fresh, and no step leaves a fresh one. -/
theorem thresholdWindowClosesWithAStep : Obligations.ThresholdWindowClosesWithAStep := by
  unfold Obligations.ThresholdWindowClosesWithAStep
  refine ⟨fun s v => ?_, fun s t v h => ?_⟩
  · have hfresh : (hostReset s).fresh = true := rfl
    rw [hostWriteThreshold, if_pos hfresh]
  · rw [hostWriteThreshold, step_closes_window h, if_neg Bool.false_ne_true]

/-! ### Reset and the host (R31, R220 to R222) -/

theorem inv_hostReset (s : State) : Inv (hostReset s) where
  store := rfl
  opos := rfl
  ipos := Nat.zero_le _
  err := by simp [hostReset, State.reset]
  settings := fun _ => rfl
  drained := fun _ => rfl
  chunks := fun n _ => Nat.zero_le n
  bytes := fun m _ => Nat.zero_le m

theorem outputShape_hostReset (s : State) : OutputShape (hostReset s) := ⟨[], by simp, rfl⟩

/-- A fresh engine has consumed nothing, so any input leaves `ipos` inside it. -/
theorem Inv.presentInput {s : State} (hi : Inv s) (hf : s.fresh = true) (bs : List Byte) :
    Inv { s with inp := bs } :=
  { hi with ipos := by simp [((fresh_iff s).1 hf).2] }

/-- Settles O25: reset empties every stored and written thing, and the host's two writes touch `IN` and
the threshold alone. -/
theorem resetMeetsAndHostKeepsTheInvariant : Obligations.ResetMeetsAndHostKeepsTheInvariant := by
  unfold Obligations.ResetMeetsAndHostKeepsTheInvariant
  refine ⟨⟨inv_hostReset State.reset, outputShape_hostReset State.reset⟩,
    fun s => ⟨inv_hostReset s, outputShape_hostReset s⟩, fun s t v bs h => ?_⟩
  rcases h with h | h
  · obtain ⟨-, rfl⟩ := hostWriteThreshold_next h
    exact ⟨fun hi => { hi with }, id⟩
  · obtain ⟨hf, rfl⟩ := hostPresentInput_next h
    exact ⟨fun hi => hi.presentInput hf bs, id⟩

/-- Settles O28: the values are the fields of `State.reset`, and `hostReset` puts `IN` back. -/
theorem resetGivesTheListedValues : Obligations.ResetGivesTheListedValues := by
  unfold Obligations.ResetGivesTheListedValues
  exact fun s => ⟨rfl, rfl, rfl, rfl, rfl, rfl, rfl, rfl, rfl, rfl⟩

/-! ### Nothing reads the parser state or the warning (R23, R27)

But for the test for a halted engine, every operation carries `PSTATE` and `W_OVW` along: from a state
with other values of the two it answers the same state with other values of the two. -/

/-- The state with other values of `PSTATE` and `W_OVW`. -/
def State.marked (p : PState) (w : Bool) (s : State) : State := { s with pstate := p, wOvw := w }

/-- An operation that may raise, but reads neither mark: it carries `PSTATE` along, and the new `W_OVW`
depends on the old one by a function that the rest of the state settles. -/
def BodyIgnoresMarks (body : State → Except FatalError State) (s : State) : Prop :=
  ∃ f : Bool → Bool, ∀ p w, body (s.marked p w) = (body s).map (State.marked p (f w))

/-- A meaning that reads neither mark: it answers one next state but for the marks, and each new mark
depends on its own old value by a function that the rest of the state settles. -/
def IgnoresMarks (act : State → Host.Outcome State Fault Refusal) (s : State) : Prop :=
  ∃ (t : State) (g : PState → PState) (f : Bool → Bool),
    ∀ p w, act (s.marked p w) = .next (t.marked (g p) (f w))

/-! #### The serializer -/

theorem emitChunk_marked (c : Chunk) (p : PState) (w : Bool) (s : State) :
    emitChunk c (s.marked p w) = (emitChunk c s).marked p w := by
  unfold emitChunk
  split_ifs <;> rfl

theorem emitChunks_marked (cs : List Chunk) (p : PState) (w : Bool) (s : State) :
    emitChunks cs (s.marked p w) = (emitChunks cs s).marked p w := by
  induction cs generalizing s with
  | nil => rfl
  | cons c cs ih => rw [emitChunks, emitChunks, emitChunk_marked, ih]

theorem flush_marked (p : PState) (w : Bool) (s : State) :
    flush (s.marked p w) = (flush s).marked p w := by
  have h : emitChunks s.cs (emitSizing (s.marked p w)) = (emitChunks s.cs (emitSizing s)).marked p w :=
    emitChunks_marked s.cs p w (emitSizing s)
  exact congrArg (fun t : State => { t with cs := [] }) h

theorem flushIfAny_marked (p : PState) (w : Bool) (s : State) :
    flushIfAny (s.marked p w) = (flushIfAny s).marked p w := by
  change (if s.cs.isEmpty then s.marked p w else flush (s.marked p w)) = _
  rw [flush_marked, flushIfAny, apply_ite (State.marked p w)]

theorem initFlush_marked (hd : Header) (p : PState) (w : Bool) (s : State) :
    initFlush hd (s.marked p w) = (initFlush hd s).marked p w := by
  rw [initFlush, flush_marked, initFlush, apply_ite (State.marked p w)]

/-- The end of a run writes `PSTATE`, whatever it was. -/
theorem finishRun_marked (p : PState) (w : Bool) (s : State) :
    finishRun (s.marked p w) = (finishRun s).marked .done w := by
  rw [finishRun, flushIfAny_marked]
  rfl

/-! #### The merger -/

theorem extend_marked (hd : Header) (t : Target) (n : Nat) (p : PState) (w : Bool) (s : State) :
    extend hd t n (s.marked p w) = (extend hd t n s).map (State.marked p w) := by
  have hfull : dataFull n (s.marked p w) = dataFull n s := rfl
  unfold extend
  rw [hfull]
  split_ifs <;> rfl

theorem coveredWrite_marked (hd : Header) (t : Target) (p : PState) (w : Bool) (s : State) :
    coveredWrite hd t (s.marked p w) = (coveredWrite hd t s).marked p (overwriteFlag hd.count w) := by
  unfold coveredWrite
  cases hd.isFill <;> rfl

theorem writeTarget_ignoresMarks (hd : Header) (t : Target) (s : State) :
    BodyIgnoresMarks (writeTarget hd t) s := by
  unfold BodyIgnoresMarks writeTarget
  by_cases ho : 0 < overhang hd t.chunk
  · simp only [if_pos ho]
    exact ⟨id, fun p w => extend_marked hd t _ p w s⟩
  · simp only [if_neg ho]
    exact ⟨overwriteFlag hd.count, fun p w => congrArg Except.ok (coveredWrite_marked hd t p w s)⟩

theorem merge_ignoresMarks (hd : Header) (s : State) : BodyIgnoresMarks (merge hd) s := by
  have htarget : ∀ p w, mergeTarget hd (s.marked p w) = mergeTarget hd s := fun _ _ => rfl
  unfold BodyIgnoresMarks merge
  simp only [htarget]
  cases mergeTarget hd s with
  | error x => exact ⟨id, fun _ _ => rfl⟩
  | ok t => exact writeTarget_ignoresMarks hd t s

/-! #### Blocks -/

theorem fillBlock_ignoresMarks (hd : Header) (s : State) : BodyIgnoresMarks (fillBlock hd) s := by
  obtain ⟨f, hf⟩ := merge_ignoresMarks hd s
  refine ⟨f, fun p w => ?_⟩
  rw [fillBlock, fillBlock, hf]
  cases merge hd s with
  | error x => rfl
  | ok u => exact congrArg Except.ok (initFlush_marked hd p (f w) u)

theorem requirePayload_ignoresMarks (hd : Header) {body : State → Except FatalError State} {s : State}
    (hb : BodyIgnoresMarks body s) : BodyIgnoresMarks (fun s => requirePayload hd s (body s)) s := by
  obtain ⟨f, hf⟩ := hb
  have havail : ∀ p w, inAvail (s.marked p w) = inAvail s := fun _ _ => rfl
  refine ⟨f, fun p w => ?_⟩
  simp only [requirePayload, havail, hf]
  split_ifs <;> rfl

/-- With its payload test apart, a literal block is a Fill block (R117, R118). -/
theorem literalBlock_ignoresMarks (hd : Header) (s : State) : BodyIgnoresMarks (literalBlock hd) s :=
  requirePayload_ignoresMarks hd (fillBlock_ignoresMarks hd s)

theorem settle_ignoresMarks {body : State → Except FatalError State} {s : State}
    (hb : BodyIgnoresMarks body s) : IgnoresMarks (fun s => settle s (body s)) s := by
  obtain ⟨f, hf⟩ := hb
  simp only [IgnoresMarks, hf]
  cases body s with
  | error x => exact ⟨raise x s, fun _ => .error, id, fun _ _ => rfl⟩
  | ok u => exact ⟨u, id, f, fun _ _ => rfl⟩

theorem execFirst_ignoresMarks (hd : Header) (s : State) : IgnoresMarks (execFirst hd) s := by
  refine ⟨{ flushIfAny s with is := ⟨hd.sig, hd.bcode, hd.addr⟩ }, fun _ => .streaming, id, fun p w => ?_⟩
  rw [execFirst, flushIfAny_marked]
  rfl

theorem finishRun_ignoresMarks (s : State) : IgnoresMarks (fun s => .next (finishRun s)) s :=
  ⟨finishRun s, fun _ => .done, id, fun p w => congrArg Host.Outcome.next (finishRun_marked p w s)⟩

theorem execIgnore_ignoresMarks (hd : Header) (s : State) : IgnoresMarks (execIgnore hd) s :=
  settle_ignoresMarks (requirePayload_ignoresMarks hd ⟨id, fun _ _ => rfl⟩)

theorem exec_ignoresMarks (i : Instr) (s : State) : IgnoresMarks (exec i) s := by
  cases i with
  | first hd => exact execFirst_ignoresMarks hd s
  | final hd => exact finishRun_ignoresMarks s
  | eos => exact finishRun_ignoresMarks s
  | ignore hd => exact execIgnore_ignoresMarks hd s
  | data hd | xdata hd | xdataInit hd => exact settle_ignoresMarks (literalBlock_ignoresMarks hd s)
  | fillS hd | fillL hd | xfill hd | xfillInit hd => exact settle_ignoresMarks (fillBlock_ignoresMarks hd s)
  | emitSizing => exact ⟨emitSizing s, id, id, fun _ _ => rfl⟩
  | emitChunk c =>
    exact ⟨emitChunk c s, id, id, fun p w => congrArg Host.Outcome.next (emitChunk_marked c p w s)⟩
  | emitTerm => exact ⟨terminate s, id, id, fun _ _ => rfl⟩

/-! #### Steps -/

theorem latchHeader_marked (p : PState) (w : Bool) (s : State) :
    latchHeader (s.marked p w) = (latchHeader s).marked p w := by
  have hu : unread (s.marked p w) = unread s := rfl
  unfold latchHeader
  rw [hu]
  split <;> rfl

theorem raise_marked (x : FatalError) (p : PState) (w : Bool) (s : State) :
    raise x (s.marked p w) = (raise x s).marked .error w := rfl

/-- The steps of all running engines that agree but for the two marks. -/
theorem step_marked (s : State) : ∃ (t : State) (g : PState → PState) (f : Bool → Bool),
    ∀ p w, (s.marked p w).halted = false → step (s.marked p w) = .next (t.marked (g p) (f w)) := by
  have hdec : ∀ p w, decode (s.marked p w).fillThreshold (unread (s.marked p w)) =
      decode s.fillThreshold (unread s) := fun _ _ => rfl
  cases hd : decode s.fillThreshold (unread s) with
  | ok i =>
    obtain ⟨t, g, f, hexec⟩ := exec_ignoresMarks i (latchHeader s)
    exact ⟨t, g, f, fun p w hr => by simp [step, fetch, hr, hdec, hd, latchHeader_marked, hexec]⟩
  | error x =>
    cases x with
    | truncatedHeader =>
      exact ⟨raise .truncation s, fun _ => .error, id, fun p w hr => by
        simp [step, fetch, hr, hdec, hd, raise_marked]⟩
    | checksum =>
      exact ⟨raise .checksum (latchHeader s), fun _ => .error, id, fun p w hr => by
        simp [step, fetch, hr, hdec, hd, latchHeader_marked, raise_marked]⟩

/-- Settles O16: both start states run, and the step carries `PSTATE` along. -/
theorem awaitingFirstActsAsStreaming : Obligations.AwaitingFirstActsAsStreaming := by
  unfold Obligations.AwaitingFirstActsAsStreaming
  intro s t hp h
  obtain ⟨u, g, f, hstep⟩ := step_marked s
  have hrun : s.halted = false := by simp [halted_eq_false_iff, hp]
  obtain rfl := Host.Outcome.next.inj (h.symm.trans (hstep s.pstate s.wOvw hrun))
  exact ⟨g .streaming, hstep .streaming s.wOvw rfl⟩

/-- Settles O20: a halted engine keeps what it has, and a running one carries the warning along. -/
theorem nothingReadsTheOverwriteWarning : Obligations.NothingReadsTheOverwriteWarning := by
  unfold Obligations.NothingReadsTheOverwriteWarning
  intro s t w h
  cases hh : s.halted
  · obtain ⟨u, g, f, hstep⟩ := step_marked s
    obtain rfl := Host.Outcome.next.inj (h.symm.trans (hstep s.pstate s.wOvw hh))
    exact ⟨f w, hstep s.pstate w hh⟩
  · obtain rfl := step_of_halted h hh
    exact ⟨w, step_halted (s := t.marked t.pstate w) hh⟩

end Sys2Proof.Machine

namespace Sys2Proof.Machine

/-! ### What a step that takes a fatal error does to the output (R196, R197) -/

/-- The fetch writes only at the end of the input, and that ends in `Done`. -/
theorem fetchEffect_out_of_error {s t : State} (h : FetchEffect s t) (he : t.pstate = .error) :
    t.out = s.out := by
  rcases h with ⟨-, rfl⟩ | ⟨-, -, -, rfl⟩ | ⟨-, -, -, -, rfl⟩ | ⟨B, r, -, -, -, rfl⟩
  · rfl
  · obtain ⟨e, x, bs, hf⟩ := finishRun_frame s
    rw [hf] at he
    cases he
  · rfl
  · rfl

/-- A block either takes an error and writes nothing, or leaves a running engine outside `Error`. -/
theorem blockEffect_out_of_error {i : Instr} {hd : Header} {s t : State} (h : BlockEffect i hd s t)
    (hs : s.pstate ≠ .error) (he : t.pstate = .error) : t.out = s.out := by
  rcases h with ⟨-, -, x, rfl⟩ | ⟨e, x, bs, k, w, ⟨-, -, rfl⟩ | ⟨-, -, rfl⟩ | ⟨-, -, -, ht⟩⟩
  · rfl
  · cases he
  · cases he
  · rw [ht] at he
    exact absurd he hs

theorem step_out_of_error {s t : State} (h : step s = .next t) (he : t.pstate = .error) : t.out = s.out := by
  rcases step_frame h with hF | ⟨B, r, i, hF, hB⟩
  · exact fetchEffect_out_of_error hF he
  · have hrun : s.pstate ≠ .error := ((halted_eq_false_iff s).1 hF.running).2
    exact blockEffect_out_of_error (s := decoded B s) hB hrun he

/-- Settles O23: the appended bytes are what `OUT` has grown by, so an error, which leaves `OUT`, has
appended none. -/
theorem outputIsAppendOnly : Obligations.OutputIsAppendOnly := by
  unfold Obligations.OutputIsAppendOnly
  intro s t h
  obtain ⟨bs, -, hout, hopos⟩ := step_appends h
  refine ⟨bs, hout, hopos, fun he => ?_⟩
  have hnone : s.out ++ bs = s.out := hout.symm.trans (step_out_of_error h he)
  simpa using hnone

end Sys2Proof.Machine

namespace Sys2Proof

/-! ### An input instruction, its header and its bytes (R62, R65 to R68) -/

/-- A well-formed input block is the class of its header (R65 to R67). -/
theorem classify_of_wellFormed {thr : Word} {i : Instr} {hd : Header} (hh : i.header? = some hd)
    (hw : wellFormed thr i = true) : classify thr hd = i := by
  cases i with
  | first h => exact Laws.Classified.first h thr hd hh hw
  | final h => exact Laws.Classified.final h thr hd hh hw
  | ignore h => exact Laws.Classified.ignore h thr hd hh hw
  | data h => exact Laws.Classified.data h thr hd hh hw
  | fillS h => exact Laws.Classified.fillS h thr hd hh hw
  | fillL h => exact Laws.Classified.fillL h thr hd hh hw
  | xdataInit h => exact Laws.Classified.xdataInit h thr hd hh hw
  | xfillInit h => exact Laws.Classified.xfillInit h thr hd hh hw
  | xdata h => exact Laws.Classified.xdata h thr hd hh hw
  | xfill h => exact Laws.Classified.xfill h thr hd hh hw
  | emitSizing => exact Laws.Classified.emitSizing thr hd hh hw
  | emitChunk c => exact Laws.Classified.emitChunk c thr hd hh hw
  | emitTerm => exact Laws.Classified.emitTerm thr hd hh hw
  | eos => exact Laws.Classified.eos thr hd hh hw

/-- On the input only `EOS` has no header (R68, R77). -/
theorem eos_or_header_of_isInput {i : Instr} (hi : i.isInput = true) :
    i = .eos ∨ ∃ hd, i.header? = some hd := by
  cases i <;> simp_all [Instr.isInput, Instr.header?]

@[simp] theorem encode_eos : encode .eos = [] := rfl

theorem encode_of_header {i : Instr} {hd : Header} (hh : i.header? = some hd) :
    encode i = (encodeHeader hd).toList := by
  simp only [encode, hh]

@[simp] theorem sealHeader_pack (hd : Header) (k : Byte) : sealHeader (pack hd k) = encodeHeader hd := rfl

/-- A valid header is what `ENCODE` writes for its fields (R91, R96). -/
theorem encodeHeader_unpack {B : Bytes16} (hv : xor16 B = 0) : encodeHeader (unpack B) = B := by
  rw [← sealHeader_pack _ B.b2, pack_unpack, sealHeader_of_valid hv]

/-- A written header, whatever follows it, reads as its class (R93, R95). -/
theorem decode_encodeHeader_append (thr : Word) (hd : Header) (rest : List Byte) :
    decode thr ((encodeHeader hd).toList ++ rest) = .ok (classify thr hd) := by
  rw [decode_toList_append, if_pos (xor16_encodeHeader hd), unpack_encodeHeader]

/-- Settles O6: a block reads as the class of its header, which is the block; `EOS` is the end of the
input. -/
theorem decodeOfEncodeIsTheInstruction : Obligations.DecodeOfEncodeIsTheInstruction := by
  unfold Obligations.DecodeOfEncodeIsTheInstruction
  intro thr i rest hw hi heos
  rcases eos_or_header_of_isInput hi with rfl | ⟨hd, hh⟩
  · rw [heos rfl]; rfl
  · rw [encode_of_header hh, decode_encodeHeader_append, classify_of_wellFormed hh hw]

/-- Settles O7: what decodes is `EOS` or the class of a valid header, and a valid header is the one
encoding of its fields. -/
theorem encodeOfDecodeIsTheBytes : Obligations.EncodeOfDecodeIsTheBytes := by
  unfold Obligations.EncodeOfDecodeIsTheBytes
  intro thr bs i h
  rcases decode_cases thr bs with ⟨rfl, hd⟩ | ⟨-, -, hd⟩ | ⟨B, r, -, -, hd⟩ | ⟨B, r, rfl, hv, hd⟩
  · obtain rfl : Instr.eos = i := Except.ok.inj (hd.symm.trans h)
    exact ⟨rfl, rfl, rfl⟩
  · exact nomatch hd.symm.trans h
  · exact nomatch hd.symm.trans h
  · obtain rfl : classify thr (unpack B) = i := Except.ok.inj (hd.symm.trans h)
    refine ⟨classify_wf thr _, classify_isInput thr _, ?_⟩
    rw [encode_of_header (classify_header thr _), encodeHeader_unpack hv, Bytes16.take_toList_append]

/-- Settles O9: both are the class of the header. -/
theorem oneClassPerHeader : Obligations.OneClassPerHeader := by
  unfold Obligations.OneClassPerHeader
  intro thr hd i j hwi hwj hi hj
  exact (classify_of_wellFormed hi hwi).symm.trans (classify_of_wellFormed hj hwj)

end Sys2Proof

namespace Sys2Proof

/-! ### Masks on the flags (R63) -/

/-- A mask of two disjoint parts is met exactly when each part is. -/
theorem and_or_eq_or {a b a' b' : Flags} (f : Flags) (hab : a &&& b = 0) (ha : a' &&& a = a')
    (hb : b' &&& b = b') : f &&& (a ||| b) = a' ||| b' ↔ f &&& a = a' ∧ f &&& b = b' := by
  simp only [BitVec.eq_of_getLsbD_eq_iff, BitVec.getLsbD_and, BitVec.getLsbD_or] at *
  grind

/-- A single bit matches when it is not clear. -/
theorem and_bit_eq_iff (f : Flags) {b : Flags} (hb : ∃ k < 12, b = BitVec.twoPow 12 k) :
    f &&& b = b ↔ f &&& b ≠ 0 := by
  obtain ⟨k, hk, rfl⟩ := hb
  have hne : BitVec.twoPow 12 k ≠ 0 := by
    intro h
    have := congrArg (BitVec.getLsbD · k) h
    simp [hk] at this
  rw [BitVec.and_twoPow]
  split
  · exact iff_of_true rfl hne
  · exact iff_of_false hne.symm (by simp)

/-- `FINAL` without `FIRST`. -/
theorem and_C00_eq_final (f : Flags) : f &&& 0xC00 = 0x800 ↔ f &&& 0x400 = 0 ∧ f &&& 0x800 ≠ 0 := by
  rw [← and_bit_eq_iff f (b := 0x800) (by decide)]
  exact and_or_eq_or (a := 0x400) (a' := 0) (b := 0x800) (b' := 0x800) f (by decide) (by decide) (by decide)

/-- `IGNORE` without `FIRST` and `FINAL`. -/
theorem and_D00_eq_ignore (f : Flags) : f &&& 0xD00 = 0x100 ↔ f &&& 0xC00 = 0 ∧ f &&& 0x100 ≠ 0 := by
  rw [← and_bit_eq_iff f (b := 0x100) (by decide)]
  exact and_or_eq_or (a := 0xC00) (a' := 0) (b := 0x100) (b' := 0x100) f (by decide) (by decide) (by decide)

/-- The mask of the four non-mergeable rows: no `IGNORE`, `FIRST` or `FINAL`, and `FILL` and `INIT` as
the row says. -/
theorem and_D90_eq_iff (f : Flags) {fill init : Flags} (hf : fill &&& 0x010 = fill)
    (hi : init &&& 0x080 = init) : f &&& 0xD90 = fill ||| init ↔
      (f &&& 0xD00 = 0 ∧ f &&& 0x010 = fill) ∧ f &&& 0x080 = init := by
  have hfill : f &&& 0xD10 = fill ↔ f &&& 0xD00 = 0 ∧ f &&& 0x010 = fill := by
    simpa using and_or_eq_or (a := 0xD00) (a' := 0) f (by decide) (by decide) hf
  have hsub : fill &&& 0xD10 = fill := by rw [← hf, BitVec.and_assoc]; rfl
  rw [← hfill]
  exact and_or_eq_or (a := 0xD10) (b := 0x080) f (by decide) hsub hi

/-! ### The class table (R67)

A row tests `w0`, a class its flags. Each row's test is the condition of its class; the first class
whose condition holds is then the one that the priority decode gives, since no two hold together. -/

/-- Where `flags` lies in `w0` (R60): above the four bits of `bcode`, in the low half. -/
def flagsInW0 (f : Flags) : Word := (0 : BitVec 16) ++ (f ++ (0 : BitVec 4))

theorem w0_and_flagsInW0 (B : Bytes16) (m : Flags) :
    B.w0 &&& flagsInW0 m = flagsInW0 ((unpack B).flags &&& m) := by
  refine BitVec.eq_of_getLsbD_eq fun i hi => ?_
  simp only [flagsInW0, Bytes16.w0, le32, unpack, Bytes16.hw0, BitVec.getLsbD_and, BitVec.getLsbD_append,
    BitVec.getLsbD_extractLsb']
  grind

theorem flagsInW0_injective : Function.Injective flagsInW0 := fun _ _ h =>
  BitVec.append_left_inj _ |>.1 (BitVec.append_right_inj _ |>.1 h)

/-- A mask and match on `w0` within the flag bits is one on `flags`. -/
theorem w0_and_eq_iff (B : Bytes16) (m b : Flags) :
    B.w0 &&& flagsInW0 m = flagsInW0 b ↔ (unpack B).flags &&& m = b := by
  rw [w0_and_flagsInW0, flagsInW0_injective.eq_iff]

theorem matchesHeader_iff (thr : Word) (B : Bytes16) (name : String) (m b : Flags) (c : RowCond) :
    ClassRow.matchesHeader thr B ⟨name, flagsInW0 m, flagsInW0 b, c⟩ = true ↔
      (unpack B).flags &&& m = b ∧ c.holds thr B = true := by
  rw [← w0_and_eq_iff]
  simp [ClassRow.matchesHeader]

theorem someUnnamedBit_holds_iff (thr : Word) (B : Bytes16) :
    RowCond.someUnnamedBit.holds thr B = true ↔ (unpack B).flags &&& 0x26F ≠ 0 := by
  rw [Ne, ← w0_and_eq_iff]
  simp [RowCond.holds, flagsInW0]

/-- A row names a class and, for the header `B`, tests its condition. -/
def ClassRow.Tests (thr : Word) (B : Bytes16) (r : ClassRow) (i : Instr) : Prop :=
  r.mnemonic = i.mnemonic ∧ (r.matchesHeader thr B = true ↔ wellFormed thr i = true)

/-- The ten input classes of a header, in the order of the table's `prio` column. -/
def inputClasses (h : Header) : List Instr :=
  [.first h, .final h, .ignore h, .data h, .fillS h, .fillL h, .xdataInit h, .xfillInit h, .xdata h, .xfill h]

theorem classTable_tests (thr : Word) (B : Bytes16) :
    List.Forall₂ (ClassRow.Tests thr B) classTable (inputClasses (unpack B)) := by
  have hall (f : Flags) : f &&& 0xFFF = f := BitVec.and_allOnes
  refine .cons ⟨rfl, (matchesHeader_iff thr B _ 0x400 0x400 _).trans ?first⟩ <|
    .cons ⟨rfl, (matchesHeader_iff thr B _ 0xC00 0x800 _).trans ?final⟩ <|
    .cons ⟨rfl, (matchesHeader_iff thr B _ 0xD00 0x100 _).trans ?ignore⟩ <|
    .cons ⟨rfl, (matchesHeader_iff thr B _ 0xFFF 0x000 _).trans ?data⟩ <|
    .cons ⟨rfl, (matchesHeader_iff thr B _ 0xFFF 0x010 _).trans ?fillS⟩ <|
    .cons ⟨rfl, (matchesHeader_iff thr B _ 0xFFF 0x010 _).trans ?fillL⟩ <|
    .cons ⟨rfl, (matchesHeader_iff thr B _ 0xD90 (0x000 ||| 0x080) _).trans ?xdataInit⟩ <|
    .cons ⟨rfl, (matchesHeader_iff thr B _ 0xD90 (0x010 ||| 0x080) _).trans ?xfillInit⟩ <|
    .cons ⟨rfl, (matchesHeader_iff thr B _ 0xD90 (0x000 ||| 0x000) _).trans ?xdata⟩ <|
    .cons ⟨rfl, (matchesHeader_iff thr B _ 0xD90 (0x010 ||| 0x000) _).trans ?xfill⟩ .nil
  case first => rw [and_bit_eq_iff _ (by decide)]; simp [RowCond.holds, wellFormed]
  case final => rw [and_C00_eq_final]; simp [RowCond.holds, wellFormed]
  case ignore => rw [and_D00_eq_ignore]; simp [RowCond.holds, wellFormed]
  case data => rw [hall]; simp [RowCond.holds, wellFormed]
  case fillS => rw [hall]; simp [RowCond.holds, wellFormed]
  case fillL => rw [hall]; simp [RowCond.holds, wellFormed]
  case xdataInit =>
    rw [and_D90_eq_iff _ (by decide) (by decide), and_bit_eq_iff _ (b := 0x080) (by decide)]
    simp [RowCond.holds, wellFormed]
  case xfillInit =>
    rw [and_D90_eq_iff _ (by decide) (by decide), and_bit_eq_iff _ (b := 0x010) (by decide),
      and_bit_eq_iff _ (b := 0x080) (by decide)]
    simp [RowCond.holds, wellFormed]
  case xdata =>
    rw [and_D90_eq_iff _ (by decide) (by decide), someUnnamedBit_holds_iff]
    simp [wellFormed]
  case xfill =>
    rw [and_D90_eq_iff _ (by decide) (by decide), and_bit_eq_iff _ (b := 0x010) (by decide),
      someUnnamedBit_holds_iff]
    simp [wellFormed]

/-- The first row that matches is the row of the first class whose condition holds. -/
theorem find?_row_eq_find?_class {thr : Word} {B : Bytes16} {rows : List ClassRow} {is : List Instr}
    (h : List.Forall₂ (ClassRow.Tests thr B) rows is) :
    (rows.find? (ClassRow.matchesHeader thr B)).map ClassRow.mnemonic =
      (is.find? (wellFormed thr)).map Instr.mnemonic := by
  induction h with
  | nil => rfl
  | @cons r i rows is hr _ ih =>
    obtain ⟨hname, htest⟩ := hr
    rw [List.find?_cons, List.find?_cons, Bool.eq_iff_iff.2 htest]
    cases wellFormed thr i
    · exact ih
    · exact congrArg some hname

theorem classify_mem_inputClasses (thr : Word) (h : Header) : classify thr h ∈ inputClasses h := by
  unfold classify inputClasses
  split_ifs <;> simp

theorem header_of_mem_inputClasses {h : Header} {i : Instr} (hi : i ∈ inputClasses h) :
    i.header? = some h := by
  revert i
  simp [inputClasses, Instr.header?]

/-- Only the class that the priority decode gives is well-formed (R65, R66). -/
theorem find?_inputClasses (thr : Word) (h : Header) :
    (inputClasses h).find? (wellFormed thr) = some (classify thr h) := by
  obtain ⟨i, hi⟩ := Option.isSome_iff_exists.1
    (List.find?_isSome.2 ⟨_, classify_mem_inputClasses thr h, classify_wf thr h⟩)
  rw [hi, classify_of_wellFormed (header_of_mem_inputClasses (List.mem_of_find?_eq_some hi))
    (List.find?_some hi)]

/-- Settles O8: the rows test the classes' conditions in the same order, and one of the conditions holds. -/
theorem classTableNamesTheClass : Obligations.ClassTableNamesTheClass := by
  unfold Obligations.ClassTableNamesTheClass
  intro thr B
  rw [find?_row_eq_find?_class (classTable_tests thr B), find?_inputClasses, Option.map_some]

end Sys2Proof

namespace Sys2Proof

/-! ### Reading the emitted forms back (R77, R181) -/

/-- What a written header reads as in `OUT`, by its flags. -/
theorem decodeEmitted_encodeHeader_append (hd : Header) (rest : List Byte) :
    decodeEmitted ((encodeHeader hd).toList ++ rest) =
      if hd.flags = 0x500 then some (.emitSizing, rest)
      else if hd.flags = 0x800 then some (.emitTerm, rest)
      else if hd.flags &&& 0xD00 ≠ 0 then none
      else if hd.flags &&& 0x010 ≠ 0 then
        some (.emitChunk ⟨hd.addr, hd.arg, hd.flags, hd.count, none⟩, rest)
      else
        some (.emitChunk ⟨hd.addr, hd.arg, hd.flags, hd.count, some (rest.take hd.count.toNat)⟩,
          rest.drop hd.count.toNat) := by
  simp [decodeEmitted]

/-- Flags without `IGNORE`, `FIRST` and `FINAL` are neither those of a sizing header nor those of a
terminator. -/
theorem flags_ne_of_and_D00 {f : Flags} (h : f &&& 0xD00 = 0) : f ≠ 0x500 ∧ f ≠ 0x800 := by
  constructor <;> rintro rfl <;> exact absurd h (by decide)

theorem decodeEmitted_chunkHeader_append (st : ImageSettings) {c : Chunk} (hc : c.flags &&& 0xD00 = 0)
    (rest : List Byte) :
    decodeEmitted ((encodeHeader (chunkHeader st c)).toList ++ rest) =
      if c.flags &&& 0x010 ≠ 0 then some (.emitChunk { c with data := none }, rest)
      else some (.emitChunk { c with data := some (rest.take c.length.toNat) }, rest.drop c.length.toNat) := by
  obtain ⟨hsizing, hterm⟩ := flags_ne_of_and_D00 hc
  rw [decodeEmitted_encodeHeader_append, chunkHeader, if_neg hsizing, if_neg hterm, if_neg (not_not.2 hc)]

/-- A canonical chunk reads back: a Fill chunk from its header alone, a materialized one with the
`length` bytes of its buffer. -/
theorem decodeEmitted_encodeEmitted_chunk (st : ImageSettings) (total : Word) {c : Chunk} (hc : c.wf = true)
    (rest : List Byte) :
    decodeEmitted (encodeEmitted st total (.emitChunk c) ++ rest) = some (.emitChunk c, rest) := by
  obtain ⟨hflags, hbuf⟩ := (Machine.chunk_wf_iff c).1 hc
  obtain ⟨addr, arg, flags, length, data⟩ := c
  rw [encodeEmitted, List.append_assoc, decodeEmitted_chunkHeader_append st hflags]
  rcases hbuf with ⟨hfill, rfl⟩ | ⟨hfill, d, rfl, hlen⟩
  · rw [if_pos ((Machine.isFill_eq_true_iff _).1 hfill)]
    rfl
  · rw [if_neg (not_not.2 ((Machine.isFill_eq_false_iff _).1 hfill)), ← hlen]
    simp

/-- Settles O10: the flags `0x500`, `0x800` and those of a canonical chunk tell the three forms apart. -/
theorem emittedFormsReadBack : Obligations.EmittedFormsReadBack := by
  unfold Obligations.EmittedFormsReadBack
  intro thr total st i rest hw hi
  cases i with
  | emitSizing => exact decodeEmitted_encodeHeader_append (sizingHeader st total) rest
  | emitChunk c => exact decodeEmitted_encodeEmitted_chunk st total hw rest
  | emitTerm => exact decodeEmitted_encodeHeader_append (termHeader st) rest
  | _ => cases hi

end Sys2Proof

namespace Sys2Proof.Machine

/-! ### The fields that each class ignores (R80)

The merger sees a header through its flags, address, count and argument only, so that the data blocks
of two headers that differ in the other two fields are one function. -/

/-- The same block under another loader identifier and signature. -/
def withIds (b : Bcode) (g : Byte) (hd : Header) : Header := { hd with bcode := b, sig := g }

theorem withIds_of_eq {hd hd' : Header} (hf : hd'.flags = hd.flags) (ha : hd'.addr = hd.addr)
    (hc : hd'.count = hd.count) (hg : hd'.arg = hd.arg) : hd' = withIds hd'.bcode hd'.sig hd := by
  simp [withIds, ← hf, ← ha, ← hc, ← hg]

section
variable (b : Bcode) (g : Byte) (hd : Header) (s : State)

theorem scan_withIds (cs : List Chunk) : scan (withIds b g hd) cs = scan hd cs := by
  induction cs with
  | nil => rfl
  | cons c cs ih =>
    have hel : eligible (withIds b g hd) c = eligible hd c := rfl
    rw [scan, scan, ih, hel]

theorem mergeTarget_withIds : mergeTarget (withIds b g hd) s = mergeTarget hd s := by
  have hfind : findTarget (withIds b g hd) s = findTarget hd s := by
    rw [findTarget, findTarget, scan_withIds]; rfl
  rw [mergeTarget, mergeTarget, hfind]; rfl

theorem merge_withIds : merge (withIds b g hd) s = merge hd s := by
  rw [merge, merge, mergeTarget_withIds]; rfl

theorem literalBlock_withIds : literalBlock (withIds b g hd) s = literalBlock hd s := by
  rw [literalBlock, literalBlock, merge_withIds]; rfl

theorem fillBlock_withIds : fillBlock (withIds b g hd) s = fillBlock hd s := by
  rw [fillBlock, fillBlock, merge_withIds]; rfl

end

theorem execFirst_congr {hd hd' : Header} (s : State) (hg : hd'.sig = hd.sig) (hb : hd'.bcode = hd.bcode)
    (ha : hd'.addr = hd.addr) : execFirst hd' s = execFirst hd s := by
  rw [execFirst, execFirst, hg, hb, ha]

theorem execIgnore_congr {hd hd' : Header} (s : State) (hc : hd'.count = hd.count) :
    execIgnore hd' s = execIgnore hd s := by
  rw [execIgnore, execIgnore, requirePayload, requirePayload, hc]

/-- Settles O48: `FIRST` and `IGNORE` use the fields named, `FINAL` none, and the literal and the Fill
blocks are the same under other identifiers. -/
theorem ignoredFieldsHaveNoEffect : Obligations.IgnoredFieldsHaveNoEffect := by
  unfold Obligations.IgnoredFieldsHaveNoEffect
  intro hd hd' s
  refine ⟨execFirst_congr s, rfl, execIgnore_congr s, fun hf ha hc hg => ?_⟩
  have hlit : settle s (literalBlock hd' s) = settle s (literalBlock hd s) := by
    rw [withIds_of_eq hf ha hc hg, literalBlock_withIds]
  have hfill : settle s (fillBlock hd' s) = settle s (fillBlock hd s) := by
    rw [withIds_of_eq hf ha hc hg, fillBlock_withIds]
  exact ⟨hlit, hfill, hfill, hlit, hlit, hfill, hfill⟩

end Sys2Proof.Machine

namespace Sys2Proof

/-! ### The header codec (R90 to R96) -/

/-- Settles O2: a valid header is what `ENCODE` writes for its fields, and what `ENCODE` writes is valid
and has the fields. -/
theorem headerRoundTrip : Obligations.HeaderRoundTrip := by
  unfold Obligations.HeaderRoundTrip
  exact ⟨fun _ hv => encodeHeader_unpack hv, fun hd => ⟨xor16_encodeHeader hd, unpack_encodeHeader hd⟩⟩

@[simp] theorem encodeHeader_b2 (hd : Header) : (encodeHeader hd).b2 = genChecksum (pack hd 0) := rfl

/-- Settles O1: the bytes are those of `encodeHeader`, a sealed header. -/
theorem encodeWritesSealedHeader : Obligations.EncodeWritesSealedHeader := by
  unfold Obligations.EncodeWritesSealedHeader
  intro hd s
  have hvalid : xor16 (encodeHeader hd) = 0 := xor16_encodeHeader hd
  have hchk : (encodeHeader hd).b2 = xor16 { encodeHeader hd with b2 := 0 } := b2_of_valid hvalid
  exact ⟨encodeHeader hd, by simp [Machine.emitHeader, Machine.outWrite],
    unpack_encodeHeader hd, hchk, hvalid⟩

/-- The XOR of the bytes of a list, of which `XOR16` is the case of sixteen (R90). -/
def xorBytes (bs : List Byte) : Byte := bs.foldr (· ^^^ ·) 0

theorem xorBytes_cons (b : Byte) (bs : List Byte) : xorBytes (b :: bs) = b ^^^ xorBytes bs := rfl

theorem xorBytes_toList (B : Bytes16) : xorBytes B.toList = xor16 B := by
  simp [xorBytes, Bytes16.toList, xor16, BitVec.xor_assoc]

/-- A change `d` of one byte changes the XOR by `d`, whichever byte it is (R94). -/
theorem xorBytes_modify (d : Byte) {bs : List Byte} {k : Nat} (hk : k < bs.length) :
    xorBytes (bs.modify k (fun b => b ^^^ d)) = d ^^^ xorBytes bs := by
  induction bs generalizing k with
  | nil => cases hk
  | cons b bs ih =>
    cases k with
    | zero =>
      rw [List.modify_zero_cons, xorBytes_cons, xorBytes_cons]
      ac_rfl
    | succ k =>
      rw [List.modify_succ_cons, xorBytes_cons, xorBytes_cons, ih (Nat.lt_of_succ_lt_succ hk)]
      ac_rfl

theorem exists_toList_eq {bs : List Byte} (h : bs.length = 16) : ∃ B : Bytes16, B.toList = bs := by
  rcases Bytes16.ofPrefix_cases bs with ⟨hlt, -⟩ | ⟨B, r, rfl, -⟩
  · omega
  · have hr : r = [] := by simpa using h
    exact ⟨B, by rw [hr, List.append_nil]⟩

/-- A valid header with one byte changed by `d` is a header whose XOR is `d` (R94). -/
theorem exists_toList_modify {B : Bytes16} (hv : xor16 B = 0) (d : Byte) {k : Nat} (hk : k < 16) :
    ∃ B' : Bytes16, B'.toList = B.toList.modify k (fun b => b ^^^ d) ∧ xor16 B' = d := by
  obtain ⟨B', hB'⟩ : ∃ B' : Bytes16, B'.toList = B.toList.modify k (fun b => b ^^^ d) :=
    exists_toList_eq (by simp)
  refine ⟨B', hB', ?_⟩
  calc xor16 B' = xorBytes (B.toList.modify k (fun b => b ^^^ d)) := by rw [← hB', xorBytes_toList]
    _ = d ^^^ xor16 B := by rw [xorBytes_modify d (by simpa using hk), xorBytes_toList]
    _ = d := by rw [hv]; exact BitVec.xor_zero

theorem one_shiftLeft_ne_zero : ∀ i < 8, 1#8 <<< i ≠ 0 := by decide

end Sys2Proof

namespace Sys2Proof.Machine

/-- A header whose XOR is not zero ends the step of a running engine in `ChecksumError` (R92, R190). -/
theorem step_of_badHeader {s : State} {B : Bytes16} {rest : List Byte} (hrun : s.halted = false)
    (hu : unread s = B.toList ++ rest) (hx : xor16 B ≠ 0) :
    step s = .next (raise .checksum { s with h := B, xacc := xor16 B, ipos := s.ipos + 16 }) := by
  have hdec : decode s.fillThreshold (unread s) = .error .checksum := by
    rw [hu, decode_toList_append, if_neg hx]
  have hlatch : latchHeader s = { s with h := B, xacc := xor16 B, ipos := s.ipos + 16 } := by
    simp [latchHeader, hu, Config.headerSize]
  simp [step, fetch, hrun, hdec, hlatch]

/-- Settles O3: the flipped bit is the XOR of the header read, so the header is not valid. -/
theorem oneFlippedBitStopsTheRun : Obligations.OneFlippedBitStopsTheRun := by
  unfold Obligations.OneFlippedBitStopsTheRun
  intro s B k i rest hrun hk hi hv hinp
  obtain ⟨B', hB', hx⟩ := exists_toList_modify hv (1#8 <<< i) hk
  have hbad : xor16 B' ≠ 0 := hx ▸ one_shiftLeft_ne_zero i hi
  have hu : unread s = B'.toList ++ rest := by rw [unread_def, hinp, hB']
  exact ⟨B', hB', by rw [step_of_badHeader hrun hu hbad, hx]; rfl⟩

end Sys2Proof.Machine

namespace Sys2Proof.Machine

/-! ### Runs halt (R110, R124) -/

theorem core_run_succ {s t : State} (h : step s = .next t) (k : Nat) :
    core.run (k + 1) s = core.run k t := by
  have hs : core.step s = .next t := h
  simp only [Host.Core.run, hs]

theorem core_run_of_halted {s : State} (hh : s.halted = true) (k : Nat) : core.run k s = .next s := by
  induction k with
  | zero => rfl
  | succ k ih => rw [core_run_succ (step_halted hh), ih]

/-- A running engine's step halts it or leaves at least one header less to read. -/
theorem step_halts_or_consumes {s t : State} (h : step s = .next t) (hr : s.halted = false) :
    t.halted = true ∨ inAvail t + 16 ≤ inAvail s := by
  rcases step_frame h with hF | ⟨B, r, i, hF, hB⟩
  · left
    rcases fetchEffect_pstate hF with ⟨hh, -⟩ | ⟨-, ⟨-, hdone, -⟩ | ⟨-, herr, -⟩⟩
    · simp [hr] at hh
    · exact (halted_iff t).2 (.inl hdone)
    · exact (halted_iff t).2 (.inr herr)
  · right
    obtain ⟨⟨hinp, -, -, -, -⟩, hle, -⟩ := blockEffect_keeps hB
    have hheader : 16 ≤ s.inp.length - s.ipos := by
      rw [← List.length_drop, ← unread_def, hF.input]; simp
    have hinp' : t.inp = s.inp := hinp
    rw [decoded_ipos] at hle
    rw [inAvail, inAvail, hinp']
    omega

/-- A run halts once its steps, a header each, outnumber what is left to read. -/
theorem run_halts (k : Nat) (s : State) (hk : inAvail s < 16 * k) :
    ∃ t, core.run k s = .next t ∧ t.halted = true := by
  induction k generalizing s with
  | zero => omega
  | succ k ih =>
    cases hh : s.halted
    · obtain ⟨t, ht, -⟩ := step_answers s
      rw [core_run_succ ht]
      rcases step_halts_or_consumes ht hh with hd | hlt
      · exact ⟨t, core_run_of_halted hd k, hd⟩
      · exact ih t (by omega)
    · exact ⟨s, core_run_of_halted hh _, hh⟩

/-- Settles O14: a step that does not halt the engine consumes a header. -/
theorem runHaltsWithinBound : Obligations.RunHaltsWithinBound := by
  unfold Obligations.RunHaltsWithinBound
  intro s
  obtain ⟨t, ht, hh⟩ := run_halts ((s.inp.length - s.ipos) / 16 + 1) s (by rw [inAvail]; omega)
  exact ⟨t, ht, (halted_iff t).1 hh⟩

/-- Settles O13: `Done` and `Error` are the halted states. -/
theorem haltedStepChangesNothing : Obligations.HaltedStepChangesNothing := by
  unfold Obligations.HaltedStepChangesNothing
  exact fun s h => step_halted ((halted_iff s).2 h)

/-! ### The decoded instruction (R110) -/

theorem step_of_decode {s : State} {i : Instr} (hr : s.halted = false)
    (hd : decode s.fillThreshold (unread s) = .ok i) : step s = exec i (latchHeader s) := by
  simp only [step, fetch, hr, hd, Bool.false_eq_true, if_false]

theorem latchHeader_of_empty {s : State} (hu : unread s = []) : latchHeader s = s := by
  simp [latchHeader, hu, Bytes16.ofPrefix]

/-- What `DECODE` does with a header that passes the test (R92). -/
theorem latchHeader_of_valid {s : State} {B : Bytes16} {rest : List Byte}
    (hu : unread s = B.toList ++ rest) (hx : xor16 B = 0) : latchHeader s = decoded B s := by
  simp [latchHeader, hu, hx, decoded, Config.headerSize]

theorem valid_of_decode {thr : Word} {B : Bytes16} {rest : List Byte} {i : Instr}
    (h : decode thr (B.toList ++ rest) = .ok i) : xor16 B = 0 := by
  rw [decode_toList_append] at h
  by_contra hx
  rw [if_neg hx] at h
  cases h

/-- Settles O12: what decodes has passed the test, so the header register's XOR is zero. -/
theorem stepRunsTheDecodedInstruction : Obligations.StepRunsTheDecodedInstruction := by
  unfold Obligations.StepRunsTheDecodedInstruction
  refine ⟨fun s hr hu => ?_, fun s B rest i hr hu hd => ?_⟩
  · rw [← unread_def] at hu
    rw [step_of_decode (i := .eos) hr (by rw [hu]; rfl), latchHeader_of_empty hu]
  · rw [← unread_def] at hu
    rw [step_of_decode hr (hu ▸ hd), latchHeader_of_valid hu (valid_of_decode hd), decoded]

/-! ### `FIRST`, `FINAL` and `EOS` (R111, R114, R115) -/

theorem flushIfAny_of_empty {s : State} (h : s.cs = []) : flushIfAny s = s := by
  rw [flushIfAny, h]; rfl

theorem flushIfAny_of_ne {s : State} (h : s.cs ≠ []) : flushIfAny s = flush s := by
  rw [flushIfAny, if_neg (by simpa using h)]

theorem exec_first (hd : Header) (s : State) : exec (.first hd) s =
    .next { flushIfAny s with is := ⟨hd.sig, hd.bcode, hd.addr⟩, pstate := .streaming } := rfl

/-- Settles O30: the flush, if any, comes before the capture. -/
theorem firstCapturesTheSettings : Obligations.FirstCapturesTheSettings := by
  unfold Obligations.FirstCapturesTheSettings
  refine fun hd s => ⟨fun hc => ?_, fun hc hwf => ?_⟩
  · rw [exec_first, flushIfAny_of_empty hc]
  · obtain ⟨e, x, hf⟩ := flush_eq hwf
    exact ⟨e, x, by rw [exec_first, flushIfAny_of_ne hc, hf]⟩

/-- Settles O31: `FINAL` and `EOS` are one `finishRun`. -/
theorem finalAndEosEndTheRun : Obligations.FinalAndEosEndTheRun := by
  unfold Obligations.FinalAndEosEndTheRun
  intro hd s hwf
  obtain ⟨e, x, hf⟩ := finishRun_eq hwf
  have hnext : Host.Outcome.next (φ := Fault) (ρ := Refusal) (finishRun s) = .next _ := congrArg _ hf
  exact ⟨e, x, _, rfl, hnext, hnext⟩

/-! ### The payload test (R113, R116) -/

theorem requirePayload_of_present {hd : Header} {s : State} (hp : PayloadPresent hd s)
    (body : Except FatalError State) : requirePayload hd s body = body :=
  (requirePayload_cases hd s body).elim (fun h => absurd hp h.1) And.right

theorem requirePayload_of_missing {hd : Header} {s : State} (hp : ¬ PayloadPresent hd s)
    (body : Except FatalError State) : requirePayload hd s body = .error .truncation :=
  (requirePayload_cases hd s body).elim And.right fun h => absurd h.1 hp

theorem settle_requirePayload_of_missing {hd : Header} {s : State} (hp : ¬ PayloadPresent hd s)
    (body : Except FatalError State) :
    settle s (requirePayload hd s body) = .next { s with err := .truncationError, pstate := .error } := by
  rw [requirePayload_of_missing hp]; rfl

/-- Settles O33: the four classes begin with the payload test. -/
theorem missingPayloadHasNoEffect : Obligations.MissingPayloadHasNoEffect := by
  unfold Obligations.MissingPayloadHasNoEffect
  intro hd s hp i hi
  simp only [List.mem_cons, List.not_mem_nil, or_false] at hi
  rcases hi with rfl | rfl | rfl | rfl <;> exact settle_requirePayload_of_missing hp _

/-- Settles O32: past the payload test, `IGNORE` only skips. -/
theorem ignoreSkipsItsPayload : Obligations.IgnoreSkipsItsPayload := by
  unfold Obligations.IgnoreSkipsItsPayload
  refine fun hd s => ⟨fun hp => ?_, fun hp => settle_requirePayload_of_missing hp _⟩
  rw [exec, execIgnore, requirePayload_of_present hp]; rfl

end Sys2Proof.Machine

namespace Sys2Proof.Machine

/-! ### Data blocks that get a record of their own (R117 to R122)

The conditions of the classes decide the record; the merger's laws append it, and `INIT` flushes. -/

/-- With `INIT` the whole store is written out (R122). -/
theorem initFlush_of_init {hd : Header} (h : hd.flags &&& 0x080 ≠ 0) (u : State) :
    initFlush hd u = flush u := by
  rw [initFlush, Header.hasInit, if_pos (bne_iff_ne.2 h)]

theorem wellFormed_xdata_iff (thr : Word) (hd : Header) : wellFormed thr (.xdata hd) = true ↔
    hd.flags &&& 0xD00 = 0 ∧ hd.flags &&& 0x010 = 0 ∧ hd.flags &&& 0x080 = 0 ∧ hd.flags &&& 0x26F ≠ 0 := by
  simp [wellFormed, and_assoc]

theorem wellFormed_xdataInit_iff (thr : Word) (hd : Header) : wellFormed thr (.xdataInit hd) = true ↔
    hd.flags &&& 0xD00 = 0 ∧ hd.flags &&& 0x010 = 0 ∧ hd.flags &&& 0x080 ≠ 0 := by
  simp [wellFormed, and_assoc]

theorem wellFormed_xfill_iff (thr : Word) (hd : Header) : wellFormed thr (.xfill hd) = true ↔
    hd.flags &&& 0xD00 = 0 ∧ hd.flags &&& 0x010 ≠ 0 ∧ hd.flags &&& 0x080 = 0 ∧ hd.flags &&& 0x26F ≠ 0 := by
  simp [wellFormed, and_assoc]

theorem wellFormed_xfillInit_iff (thr : Word) (hd : Header) : wellFormed thr (.xfillInit hd) = true ↔
    hd.flags &&& 0xD00 = 0 ∧ hd.flags &&& 0x010 ≠ 0 ∧ hd.flags &&& 0x080 ≠ 0 := by
  simp [wellFormed, and_assoc]

theorem wellFormed_fillL_iff (thr : Word) (hd : Header) : wellFormed thr (.fillL hd) = true ↔
    hd.flags = 0x010 ∧ thr.toNat < hd.count.toNat := by
  simp [wellFormed]

/-- A literal block without `INIT` that gets a new record (R147, R153). -/
theorem settle_literalBlock_appends {hd : Header} {s : State} (hnew : NeedsNew s.fillThreshold hd s.cs)
    (hlit : hd.flags &&& 0x010 = 0) (hinit : hd.flags &&& 0x080 = 0) (hp : PayloadPresent hd s)
    (hroom : RoomForChunk s) (hbytes : RoomForBytes hd.count.toNat s) :
    ∃ k : Nat, settle s (literalBlock hd s) = .next { s with
      ipos := s.ipos + hd.count.toNat
      cs := s.cs ++ [⟨hd.addr, hd.arg, hd.flags, hd.count, some (payloadBytes hd s)⟩]
      freeCount := k } := by
  obtain ⟨k, hm⟩ := merge_literal_new hnew hroom hlit hp hbytes
  exact ⟨k, by rw [settle_literalBlock hp hm, initFlush_of_no_init hinit]⟩

/-- Settles O34: `DATA` has no match and `XDATA` may not merge, so each gets a new record. -/
theorem literalBlockAppendsAChunk : Obligations.LiteralBlockAppendsAChunk := by
  unfold Obligations.LiteralBlockAppendsAChunk
  intro thr hd s i hi hw hp hroom hbytes
  rcases hi with ⟨rfl, hno⟩ | rfl
  · obtain ⟨-, hf⟩ := data_mayMerge hw
    exact settle_literalBlock_appends (.inr hno) (by rw [hf]; rfl) (by rw [hf]; rfl) hp hroom hbytes
  · obtain ⟨hD, hlit, hinit, hx⟩ := (wellFormed_xdata_iff thr hd).1 hw
    exact settle_literalBlock_appends (.inl (not_mayMerge_of_flags rfl hD (.inr hx))) hlit hinit hp hroom hbytes

/-- Settles O35: the flush follows the merge, and the store it writes is canonical. -/
theorem xdataInitAppendsAndFlushes : Obligations.XdataInitAppendsAndFlushes := by
  unfold Obligations.XdataInitAppendsAndFlushes
  intro thr hd s hw hwf hp hroom hbytes
  obtain ⟨hD, hlit, hinit⟩ := (wellFormed_xdataInit_iff thr hd).1 hw
  have hnew : NeedsNew s.fillThreshold hd s.cs := .inl (not_mayMerge_of_flags rfl hD (.inl hinit))
  obtain ⟨k, hm⟩ := merge_literal_new hnew hroom hlit hp hbytes
  obtain ⟨e, x, hf⟩ := flush_eq (merge_wf hm hD (fun _ => hp) hwf)
  exact ⟨e, x, k, _, rfl, by
    rw [exec, execXdataInit, settle_literalBlock hp hm, initFlush_of_init hinit, hf]⟩

/-! ### Fill blocks -/

/-- Only a small Fill-only block stores other flags than its own (R147, conflict C1). -/
theorem storedFlags_of_not_small {thr : Word} {hd : Header}
    (h : ¬ (hd.flags = 0x010 ∧ hd.count.toNat ≤ thr.toNat)) : hd.storedFlags thr = hd.flags := if_neg h

/-- The merge of a block that needs a new record where none fits (R156). -/
theorem merge_of_noRoom {hd : Header} {s : State} (h : NeedsNew s.fillThreshold hd s.cs)
    (hr : ¬ RoomForChunk s) : merge hd s = .error .capacity := by
  have hfull : storeFull s = true := by
    rw [← Bool.not_eq_false, storeFull_eq_false_iff]; exact hr
  simp [merge, mergeTarget_of_needsNew h, createTarget, hfull]

/-- A Fill block without `INIT` that gets a new Fill record (R147, R154). -/
theorem settle_fillBlock_appends {hd : Header} {s : State} (hnew : NeedsNew s.fillThreshold hd s.cs)
    (hfill : hd.flags &&& 0x010 ≠ 0) (hinit : hd.flags &&& 0x080 = 0)
    (hsmall : ¬ (hd.flags = 0x010 ∧ hd.count.toNat ≤ s.fillThreshold.toNat)) (hroom : RoomForChunk s) :
    settle s (fillBlock hd s) =
      .next { s with cs := s.cs ++ [⟨hd.addr, hd.arg, hd.flags, hd.count, none⟩] } := by
  rw [settle_fillBlock (merge_fill_new hnew hroom hfill (storedFlags_of_not_small hsmall)),
    initFlush_of_no_init hinit]

theorem settle_fillBlock_of_noRoom {hd : Header} {s : State} (hnew : NeedsNew s.fillThreshold hd s.cs)
    (hroom : ¬ RoomForChunk s) :
    settle s (fillBlock hd s) = .next { s with err := .capacityError, pstate := .error } := by
  rw [fillBlock, merge_of_noRoom hnew hroom]; rfl

/-- A large Fill-only block may not merge (R144). -/
theorem not_mayMerge_of_large {thr : Word} {hd : Header} (hf : hd.flags = 0x010)
    (hlarge : thr.toNat < hd.count.toNat) : ¬ MayMerge thr hd := fun hm => hm.2 ⟨hf, hlarge⟩

/-- Settles O40: neither class may merge or has `INIT`, and each stores its own flags. -/
theorem largeFillAndXfillAppendAFillChunk : Obligations.LargeFillAndXfillAppendAFillChunk := by
  unfold Obligations.LargeFillAndXfillAppendAFillChunk
  intro hd s i hi hw
  rcases hi with rfl | rfl
  · obtain ⟨hf, hlarge⟩ := (wellFormed_fillL_iff _ hd).1 hw
    have hnew : NeedsNew s.fillThreshold hd s.cs := .inl (not_mayMerge_of_large hf hlarge)
    exact ⟨settle_fillBlock_appends hnew (by rw [hf]; decide) (by rw [hf]; rfl) fun ⟨_, hle⟩ => by omega,
      fun hroom => ⟨s.cs, settle_fillBlock_of_noRoom hnew hroom⟩⟩
  · obtain ⟨hD, hfill, hinit, hx⟩ := (wellFormed_xfill_iff _ hd).1 hw
    obtain ⟨-, -, -, -, hne⟩ := nonMergeable_flags _ hD (.inr hx)
    have hnew : NeedsNew s.fillThreshold hd s.cs := .inl (not_mayMerge_of_flags rfl hD (.inr hx))
    exact ⟨settle_fillBlock_appends hnew hfill hinit fun ⟨hf, _⟩ => hne hf,
      fun hroom => ⟨s.cs, settle_fillBlock_of_noRoom hnew hroom⟩⟩

/-- Settles O41: the flush follows the merge, and the store it writes is canonical. -/
theorem xfillInitAppendsAndFlushes : Obligations.XfillInitAppendsAndFlushes := by
  unfold Obligations.XfillInitAppendsAndFlushes
  intro hd s hw hwf hroom
  obtain ⟨hD, hfill, hinit⟩ := (wellFormed_xfillInit_iff _ hd).1 hw
  obtain ⟨-, -, -, -, hne⟩ := nonMergeable_flags _ hD (.inl hinit)
  have hm := merge_fill_new (.inl (not_mayMerge_of_flags rfl hD (.inl hinit))) hroom hfill
    (storedFlags_of_not_small fun h => hne h.1)
  have hsource : hd.isFill = true := bne_iff_ne.2 hfill
  obtain ⟨e, x, hf⟩ := flush_eq (merge_wf hm hD (fun h => by simp [hsource] at h) hwf)
  exact ⟨e, x, _, rfl, by
    rw [exec, execXfillInit, settle_fillBlock hm, initFlush_of_init hinit, hf]⟩

/-! ### `FILL.S` without a match (R118, R151, R152) -/

/-- The new record of a small Fill-only block is literal (R147, conflict C1). -/
theorem newChunk_of_small {thr : Word} {hd : Header} (hf : hd.flags = 0x010)
    (hle : hd.count.toNat ≤ thr.toNat) : newChunk thr hd = ⟨hd.addr, hd.arg, 0x000, 0, some []⟩ := by
  have hs : hd.storedFlags thr = 0x000 := if_pos ⟨hf, hle⟩
  rw [newChunk, hs]; rfl

/-- A Fill source of no bytes changes nothing (R155). -/
theorem coveredWrite_fill_zero {hd : Header} {t : Target} {s : State} (hf : hd.isFill = true)
    (hz : hd.count = 0) : coveredWrite hd t s = { s with cs := putChunk t t.chunk } := by
  simp [coveredWrite, hf, overwriteFlag, hz]

/-- A small Fill-only block that needs a new record (R147, R151, R152). -/
theorem merge_fillS_new {hd : Header} {s : State} (hf : hd.flags = 0x010)
    (hle : hd.count.toNat ≤ s.fillThreshold.toNat) (hno : NoMatch hd s.cs) (hroom : RoomForChunk s)
    (hbytes : RoomForBytes hd.count.toNat s) :
    ∃ (k : Nat) (unwritten : List Byte), unwritten.length = hd.count.toNat % 4 ∧
      merge hd s = .ok { s with
        cs := s.cs ++ [⟨hd.addr, hd.arg, 0x000, hd.count,
          some (fillRun hd (hd.count.toNat / 4) ++ unwritten)⟩]
        freeCount := k } := by
  have hsource : hd.isFill = true := by rw [Header.isFill, hf]; rfl
  rw [merge_of_needsNew (.inr hno) hroom, newChunk_of_small hf hle]
  rcases Nat.eq_zero_or_pos hd.count.toNat with hz | hpos
  · have hz' : hd.count = 0 := BitVec.eq_of_toNat_eq hz
    refine ⟨s.freeCount, [], by rw [hz]; rfl, ?_⟩
    rcases writeTarget_cases hd ⟨s.cs, ⟨hd.addr, hd.arg, 0x000, 0, some []⟩, []⟩ s with
      ⟨-, hw⟩ | ⟨n, hn, he, -⟩
    · rw [hw, coveredWrite_fill_zero hsource hz', hz']; rfl
    · have hgrow : hd.count.toNat = n := by simpa [Header.endAddr, Chunk.endAddr] using he
      omega
  · obtain ⟨k, unw, hl, hw⟩ := writeTarget_fill
      (t := ⟨s.cs, ⟨hd.addr, hd.arg, 0x000, 0, some []⟩, []⟩) (d := []) hsource
      (by simp [Chunk.isFill]) ⟨rfl, rfl⟩ le_rfl
      (Nat.le_add_right _ _) hpos rfl (Nat.add_lt_add_left hd.count.isLt _) hbytes
    have hmod := Nat.mod_le hd.count.toNat 4
    refine ⟨k, unw, by rw [hl]; omega, ?_⟩
    rw [hw]
    simp [Header.endAddr]

/-- Settles O38: the new record is literal and empty, so the unroll fills all of it but the last bytes. -/
theorem smallFillUnrollsIntoANewChunk : Obligations.SmallFillUnrollsIntoANewChunk := by
  unfold Obligations.SmallFillUnrollsIntoANewChunk
  intro hd s hw hno hroom hbytes
  obtain ⟨-, hf, hle⟩ := fillS_mayMerge hw
  obtain ⟨k, unw, hl, hm⟩ := merge_fillS_new hf hle hno hroom hbytes
  have hinit : hd.flags &&& 0x080 = 0 := by rw [hf]; rfl
  exact ⟨k, unw, hl, by rw [exec, execFillS, settle_fillBlock hm, initFlush_of_no_init hinit]⟩

end Sys2Proof.Machine

namespace Sys2Proof.Machine

/-! ### What a merge does to its target

A block that is merged works on one record: the cursor's, or the new one at the tail. The rules of one
write to it are said once; the obligations about the store pick the record. -/

/-- A target written unchanged is the store it was found in (R158 item 3). -/
theorem putChunk_self (pre post : List Chunk) (c : Chunk) : putChunk ⟨pre, c, post⟩ c = pre ++ c :: post := rfl

/-- A record of the store is a record of the store with the target replaced, unless it is the target. -/
theorem getElem?_putChunk {t : Target} {j : Nat} {c : Chunk} (c' : Chunk)
    (h : (putChunk t t.chunk)[j]? = some c) :
    (putChunk t c')[j]? = some c ∨ (c = t.chunk ∧ (putChunk t c')[j]? = some c') := by
  have hset : putChunk t c' = (putChunk t t.chunk).set t.pre.length c' := by
    simp [putChunk, List.set_append_right]
  rw [hset, List.getElem?_set]
  by_cases hj : t.pre.length = j
  · subst hj
    have hc : t.chunk = c := by simpa [putChunk] using h
    exact .inr ⟨hc.symm, by simp [putChunk]⟩
  · exact .inl (by rw [if_neg hj, h])

/-- A write at the end of the old bytes keeps them (R153). -/
theorem prefix_writeAt (d x bs : List Byte) : d <+: writeAt (d ++ x) d.length bs := by
  simp [writeAt]

/-- What a block makes of the record it goes to: the fields of its creation stay, it ends at the later
of the two ends (R149, R155), and a literal source keeps the bytes it holds (R153). -/
structure WrittenInto (hd : Header) (c c' : Chunk) : Prop where
  addr    : c'.addr = c.addr
  arg     : c'.arg = c.arg
  flags   : c'.flags = c.flags
  endAddr : c'.endAddr = max c.endAddr hd.endAddr
  bytes   : hd.isFill = false → ∀ d, HasBuffer c d → ∃ d', c'.data = some d' ∧ d <+: d'

/-- No record is shortened (R158 item 3). -/
theorem WrittenInto.length_le {hd : Header} {c c' : Chunk} (h : WrittenInto hd c c') :
    c.length.toNat ≤ c'.length.toNat := by
  have hend := h.endAddr
  simp only [Chunk.endAddr, h.addr] at hend
  omega

/-- A new record gets the length of its block (R148). -/
theorem WrittenInto.length_of_new {thr : Word} {hd : Header} {c : Chunk}
    (h : WrittenInto hd (newChunk thr hd) c) : c.length = hd.count := by
  have hend := h.endAddr
  simp only [Chunk.endAddr, Header.endAddr, h.addr, newChunk_addr, newChunk_length] at hend
  have hzero : (0 : Word).toNat = 0 := rfl
  exact BitVec.eq_of_toNat_eq (by omega)

/-- A covered write leaves the record (R155). -/
theorem writtenInto_self {hd : Header} {c : Chunk} (h : hd.endAddr ≤ c.endAddr) : WrittenInto hd c c :=
  ⟨rfl, rfl, rfl, (max_eq_left h).symm, fun _ d hb => ⟨d, hb.1, List.prefix_rfl⟩⟩

/-- A record that grows by the overhang ends where the block ends (R149). -/
theorem endAddr_of_grown {hd : Header} {c c' : Chunk} {n : Nat} (he : hd.endAddr = c.endAddr + n)
    (ha : c'.addr = c.addr) (hl : c'.length.toNat = c.length.toNat + n) :
    c'.endAddr = max c.endAddr hd.endAddr := by
  simp only [Chunk.endAddr] at he ⊢
  rw [ha, hl]
  omega

/-- The write phase replaces the target by one record that it has written into (R148 to R155). -/
theorem writeTarget_writtenInto {hd : Header} {t : Target} {s u : State} (h : writeTarget hd t s = .ok u) :
    ∃ c', u.cs = putChunk t c' ∧ WrittenInto hd t.chunk c' := by
  rcases writeTarget_ok h with ⟨hc, rfl⟩ |
    ⟨n, -, he, hfit, ⟨hf, -, rfl⟩ | ⟨hf, -, -, rfl⟩ | ⟨-, -, rfl⟩⟩
  · exact ⟨_, rfl, writtenInto_self hc⟩
  · exact ⟨_, rfl, rfl, rfl, rfl, endAddr_of_grown he rfl (lengthen_length hfit),
      fun hlit => by simp [hf] at hlit⟩
  · refine ⟨_, rfl, by simp, by simp, by simp, endAddr_of_grown he (by simp) ?_,
      fun hlit => by simp [hf] at hlit⟩
    simpa [lengthen] using lengthen_length hfit
  · refine ⟨_, rfl, rfl, rfl, rfl, endAddr_of_grown he rfl (lengthen_length hfit), fun _ d hb => ⟨_, rfl, ?_⟩⟩
    have hd' : t.chunk.buf = d := by simp [Chunk.buf, hb.1]
    rw [bufGrow_buf, hd', ← hb.2]
    exact prefix_writeAt d _ _

/-- The two ways a merge can change the store: a new record at the tail, or the first match written
into, in its place (R157, R158). -/
theorem merge_store {hd : Header} {s u : State} (h : merge hd s = .ok u) :
    (NeedsNew s.fillThreshold hd s.cs ∧
      ∃ c, u.cs = s.cs ++ [c] ∧ WrittenInto hd (newChunk s.fillThreshold hd) c) ∨
    (MayMerge s.fillThreshold hd ∧ ∃ t c', s.cs = putChunk t t.chunk ∧ FirstMatch hd t.pre t.chunk ∧
      u.cs = putChunk t c' ∧ WrittenInto hd t.chunk c') := by
  obtain ⟨t, ht, hw⟩ := merge_ok h
  obtain ⟨c', hcs', hwr⟩ := writeTarget_writtenInto hw
  rcases mergeTarget_cases hd s with ⟨t', ht', hmay, hcs, hmatch⟩ | ⟨hnew, ⟨-, he⟩ | ⟨-, ht'⟩⟩
  · obtain rfl : t' = t := by simpa [ht'] using ht
    exact .inr ⟨hmay, t', c', hcs, hmatch, hcs', hwr⟩
  · simp [he] at ht
  · obtain rfl : _ = t := by simpa [ht'] using ht
    exact .inl ⟨hnew, c', hcs', hwr⟩

/-- What a merge does to each record of the store: nothing, or, to a match, one write (R158 item 2). -/
theorem merge_getElem? {hd : Header} {s u : State} (h : merge hd s = .ok u) {j : Nat} {c : Chunk}
    (hj : s.cs[j]? = some c) :
    u.cs[j]? = some c ∨ (Matches hd c ∧ ∃ c', u.cs[j]? = some c' ∧ WrittenInto hd c c') := by
  rcases merge_store h with ⟨-, c', hcs', -⟩ | ⟨-, t, c', hcs, ⟨-, hmatch⟩, hcs', hwr⟩
  · obtain ⟨hlt, -⟩ := List.getElem?_eq_some_iff.1 hj
    exact .inl (by rw [hcs', List.getElem?_append_left hlt, hj])
  · rw [hcs] at hj
    rw [hcs']
    refine (getElem?_putChunk c' hj).imp id ?_
    rintro ⟨rfl, hput⟩
    exact ⟨hmatch, c', hput, hwr⟩

/-! ### Data blocks without `INIT` -/

/-- The classes that do not flush: no `INIT` bit (R66, R122). -/
theorem noInit_of_wellFormed {thr : Word} {hd : Header} {i : Instr}
    (hi : i ∈ [Instr.data hd, .fillS hd, .fillL hd, .xdata hd, .xfill hd]) (hw : wellFormed thr i = true) :
    hd.flags &&& 0x080 = 0 := by
  simp only [List.mem_cons, List.not_mem_nil, or_false] at hi
  rcases hi with rfl | rfl | rfl | rfl | rfl
  · rw [(data_mayMerge hw).2]; rfl
  · rw [(fillS_mayMerge hw).2.1]; rfl
  · rw [((wellFormed_fillL_iff thr hd).1 hw).1]; rfl
  · exact ((wellFormed_xdata_iff thr hd).1 hw).2.2.1
  · exact ((wellFormed_xfill_iff thr hd).1 hw).2.2.1

/-- A data block without `INIT` that takes no error is a merge (R117 to R121). -/
theorem merge_of_exec {thr : Word} {hd : Header} {i : Instr} {s t : State}
    (hi : i ∈ [Instr.data hd, .fillS hd, .fillL hd, .xdata hd, .xfill hd]) (hw : wellFormed thr i = true)
    (h : exec i s = .next t) (hok : t.pstate ≠ .error) : merge hd s = .ok t := by
  have hinit := noInit_of_wellFormed hi hw
  have merged : ∀ u, merge hd s = .ok u → exec i s = .next (initFlush hd u) → merge hd s = .ok t := by
    intro u hm he
    rw [h, initFlush_of_no_init hinit] at he
    rw [hm, Host.Outcome.next.inj he]
  have hclass : i.header? = some hd ∧ i ≠ .first hd ∧ i ≠ .final hd ∧ i ≠ .ignore hd := by
    simp only [List.mem_cons, List.not_mem_nil, or_false] at hi
    rcases hi with rfl | rfl | rfl | rfl | rfl <;> simp [Instr.header?]
  obtain ⟨hh, hfirst, hfinal, hignore⟩ := hclass
  rcases exec_cases hd i hh s with
    ⟨hc, -⟩ | ⟨hc, -⟩ | ⟨-, -, ⟨x, he⟩ | ⟨hc, -⟩ | ⟨-, u, -, hm, he⟩ | ⟨-, u, hm, he⟩⟩
  · exact absurd hc hfirst
  · exact absurd hc hfinal
  · rw [h] at he
    exact absurd (by rw [Host.Outcome.next.inj he]; rfl) hok
  · exact absurd hc hignore
  · exact merged u hm he
  · exact merged u hm he

/-- Settles O45: the store changes in one of two ways, and a new record, of length zero, is written into
as a match is. -/
theorem mergeTouchesAtMostOneRecord : Obligations.MergeTouchesAtMostOneRecord := by
  unfold Obligations.MergeTouchesAtMostOneRecord
  intro hd s t i hi hw h hok
  rcases merge_store (merge_of_exec hi hw h hok) with
    ⟨hnew, c, hcs, hwr⟩ | ⟨hmay, tg, c', hcs, hmatch, hcs', hwr⟩
  · exact .inl ⟨hnew, c, hcs, hwr.addr, hwr.arg, hwr.length_of_new, hwr.flags⟩
  · exact .inr ⟨hmay, tg.pre, tg.chunk, c', tg.post, hcs, hmatch, hcs', hwr.addr, hwr.arg, hwr.flags,
      hwr.length_le, hwr.endAddr⟩

/-- Settles O46: a record that is not left as it was is one that a literal source has written into. -/
theorem literalBlockKeepsStoredBytes : Obligations.LiteralBlockKeepsStoredBytes := by
  unfold Obligations.LiteralBlockKeepsStoredBytes
  intro hd s t i hi hw hwf h hok j c d hj hd'
  have hm : merge hd s = .ok t := merge_of_exec (by rcases hi with rfl | rfl <;> simp) hw h hok
  have hlit : hd.isFill = false := (wellFormed_literal (by rcases hi with rfl | rfl <;> simp) hw).1
  rcases merge_getElem? hm hj with hsame | ⟨-, c', hj', hwr⟩
  · exact ⟨c, d, hsame, hd', List.prefix_rfl⟩
  · have hc : c.wf = true := (memory_wf_iff _).1 hwf c (List.mem_of_getElem? hj)
    have hb : HasBuffer c d := by
      rcases ((chunk_wf_iff c).1 hc).2 with ⟨-, hnone⟩ | ⟨-, d₀, hb⟩
      · simp [hd'] at hnone
      · obtain rfl : d₀ = d := Option.some.inj (hb.1.symm.trans hd')
        exact hb
    obtain ⟨d', hdata, hpre⟩ := hwr.bytes hlit d hb
    exact ⟨c', d', hj', hdata, hpre⟩

/-- Settles O47: only a match is written into, and a Fill record is none. -/
theorem fillChunksAreSegregated : Obligations.FillChunksAreSegregated := by
  unfold Obligations.FillChunksAreSegregated
  intro hd s t i hi hw h hok j c hj hfill
  rcases merge_getElem? (merge_of_exec hi hw h hok) hj with hsame | ⟨⟨hno, -⟩, -⟩
  · exact hsame
  · exact absurd hno hfill

/-! ### Blocks that go to their first match (R149 to R155) -/

/-- A `DATA` block whose merge takes no error has no more effect (R117). -/
theorem exec_data_of_merge {thr : Word} {hd : Header} {s u : State} (hw : wellFormed thr (.data hd) = true)
    (hp : PayloadPresent hd s) (hm : merge hd s = .ok u) : exec (.data hd) s = .next u := by
  rw [exec, execData, settle_literalBlock hp hm, initFlush_of_no_init (noInit_of_wellFormed (by simp) hw)]

/-- A `FILL.S` block whose merge takes no error has no more effect (R118). -/
theorem exec_fillS_of_merge {thr : Word} {hd : Header} {s u : State} (hw : wellFormed thr (.fillS hd) = true)
    (hm : merge hd s = .ok u) : exec (.fillS hd) s = .next u := by
  rw [exec, execFillS, settle_fillBlock hm, initFlush_of_no_init (noInit_of_wellFormed (by simp) hw)]

/-- The class of a block that may merge says whether it has a payload (R141). -/
theorem isFill_of_data {thr : Word} {hd : Header} (hw : wellFormed thr (.data hd) = true) :
    hd.isFill = false := (wellFormed_literal (by simp) hw).1

theorem isFill_of_fillS {thr : Word} {hd : Header} (hw : wellFormed thr (.fillS hd) = true) :
    hd.isFill = true := (wellFormed_fill (by simp) hw).1

/-- Settles O36: past the end of the match, the literal write sets no warning. -/
theorem dataExtendsTheFirstMatch : Obligations.DataExtendsTheFirstMatch := by
  unfold Obligations.DataExtendsTheFirstMatch
  intro thr hd s pre post c d hw hp hcs hmatch hb hpast hfit hroom
  obtain ⟨-, hle, hin⟩ := hmatch.2
  obtain ⟨k, w, hwarn, hwrite⟩ := writeTarget_literal (t := ⟨pre, c, post⟩) (isFill_of_data hw) hp hb hle hin
    hpast.le hfit hroom
  have hw' : w = s.wOvw := hwarn.resolve_right fun ⟨he, _⟩ => absurd he (Nat.ne_of_gt hpast)
  subst hw'
  have hm := merge_of_firstMatch (data_mayMerge (thr := s.fillThreshold) hw).1 hcs hmatch
  exact ⟨k, exec_data_of_merge hw hp (hm.trans hwrite)⟩

/-- The warning that a covered write leaves (R155, R193). -/
theorem overwriteFlag_eq (n : Word) (w : Bool) : overwriteFlag n w = if n = 0 then w else true := by
  unfold overwriteFlag
  split_ifs with h
  · simp [h]
  · rw [bne_iff_ne.2 h, Bool.or_true]

/-- A block that ends inside its first match leaves the store (R155). -/
theorem merge_of_covered {hd : Header} {s : State} {pre post : List Chunk} {c : Chunk}
    (hmay : MayMerge s.fillThreshold hd) (hcs : s.cs = pre ++ c :: post) (hmatch : FirstMatch hd pre c)
    (hcov : hd.endAddr ≤ c.endAddr) :
    merge hd s = .ok { s with
      ipos := s.ipos + (if hd.isFill then 0 else hd.count.toNat)
      wOvw := if hd.count = 0 then s.wOvw else true } := by
  have hno : ¬ 0 < overhang hd c := by simp only [overhang]; omega
  rw [merge_of_firstMatch hmay hcs hmatch, writeTarget, if_neg hno, coveredWrite, putChunk_self, ← hcs,
    overwriteFlag_eq]
  cases hd.isFill <;> rfl

/-- Settles O37: the match of a covered write stays as it was, and only `DATA` has a payload. -/
theorem coveredWriteIsDiscarded : Obligations.CoveredWriteIsDiscarded := by
  unfold Obligations.CoveredWriteIsDiscarded
  refine fun hd s pre post c hcs hmatch hcov => ⟨fun hw hp => ?_, fun hw => ?_⟩
  · have hm := merge_of_covered (data_mayMerge hw).1 hcs hmatch hcov
    rw [isFill_of_data hw] at hm
    exact exec_data_of_merge hw hp hm
  · have hm := merge_of_covered (fillS_mayMerge hw).1 hcs hmatch hcov
    rw [isFill_of_fillS hw] at hm
    exact exec_fillS_of_merge hw hm

/-- Settles O39: the unroll goes over the bytes of the match, and no input is read. -/
theorem smallFillExtendsTheFirstMatch : Obligations.SmallFillExtendsTheFirstMatch := by
  unfold Obligations.SmallFillExtendsTheFirstMatch
  intro hd s pre post c d off n hw hcs hmatch hb hoff hn hpos hfit hroom
  obtain ⟨hno, hle, hin⟩ := hmatch.2
  subst hoff
  have hend : hd.endAddr = c.endAddr + n := by simp only [Header.endAddr, Chunk.endAddr]; omega
  obtain ⟨k, unw, hl, hwrite⟩ := writeTarget_fill (t := ⟨pre, c, post⟩) (isFill_of_fillS hw)
    ((isFill_eq_false_iff c).2 hno) hb hle hin hpos hend hfit hroom
  have hm := merge_of_firstMatch (fillS_mayMerge hw).1 hcs hmatch
  exact ⟨k, unw, hl, exec_fillS_of_merge hw (hm.trans hwrite)⟩

end Sys2Proof.Machine

namespace Sys2Proof.Machine

/-! ### The shape of the output (R174, R178, R180) -/

/-- `image*` (R180): what the run so far has flushed. -/
def IsImages (bs : List Byte) : Prop :=
  ∃ ims : List Image, (∀ im ∈ ims, im.wf = true) ∧ bs = ims.flatMap Image.bytes

theorem image_wf_iff (im : Image) : im.wf = true ↔ im.cs ≠ [] ∧ Memory.wf im.cs = true := by
  simp [Image.wf]

theorem IsImages.append_image {bs : List Byte} (h : IsImages bs) {im : Image} (hw : im.wf = true) :
    IsImages (bs ++ im.bytes) := by
  obtain ⟨ims, hims, rfl⟩ := h
  exact ⟨ims ++ [im], List.forall_mem_append.2 ⟨hims, List.forall_mem_singleton.2 hw⟩, by simp⟩

/-- An empty store is not flushed, so no image is empty (R178). -/
theorem IsImages.append_store {bs : List Byte} (h : IsImages bs) (st : ImageSettings) {cs : List Chunk}
    (hwf : Memory.wf cs = true) : IsImages (bs ++ if cs = [] then [] else (Image.mk st cs).bytes) := by
  split_ifs with hc
  · rwa [List.append_nil]
  · exact h.append_image ((image_wf_iff _).2 ⟨hc, hwf⟩)

theorem outputShape_of_not_done {s : State} (h : s.pstate ≠ .done) : OutputShape s ↔ IsImages s.out := by
  simp [OutputShape, IsImages, h]

theorem outputShape_of_done {s : State} (h : s.pstate = .done) {bs : List Byte} (hbs : IsImages bs)
    (hout : s.out = bs ++ termBytes s.is) : OutputShape s := by
  obtain ⟨ims, hims, rfl⟩ := hbs
  exact ⟨ims, hims, by rw [if_pos h, hout]⟩

/-- A running engine has written no terminator. -/
theorem isImages_of_running {s : State} (hr : s.halted = false) (h : OutputShape s) : IsImages s.out :=
  (outputShape_of_not_done ((halted_eq_false_iff s).1 hr).1).1 h

theorem outputShape_raise {s : State} (x : FatalError) (h : IsImages s.out) : OutputShape (raise x s) :=
  (outputShape_of_not_done (by simp)).2 h

/-- The end of a run writes the last image, if any, and the terminator (R111, R115). -/
theorem outputShape_finishRun {s : State} (hwf : Memory.wf s.cs = true) (h : IsImages s.out) :
    OutputShape (finishRun s) := by
  obtain ⟨e, x, hf⟩ := finishRun_eq hwf
  rw [hf]
  exact outputShape_of_done rfl (h.append_store s.is hwf) (List.append_assoc _ _ _).symm

/-- `FIRST` writes the pending image, if any, before it captures its settings (R114). -/
theorem outputShape_execFirst {s t : State} (hd : Header) (hwf : Memory.wf s.cs = true) (h : IsImages s.out)
    (ht : exec (.first hd) s = .next t) : OutputShape t := by
  obtain ⟨e, x, hf⟩ := flushIfAny_eq hwf
  rw [exec_first, hf] at ht
  obtain rfl := Host.Outcome.next.inj ht
  exact (outputShape_of_not_done (by simp)).2 (h.append_store s.is hwf)

/-- A merge that takes no error leaves a record in the store (R147, R158), so the INIT flush writes an
image that is not empty (R122). -/
theorem merge_cs_ne_nil {hd : Header} {s u : State} (h : merge hd s = .ok u) : u.cs ≠ [] := by
  rcases merge_store h with ⟨-, c, hcs, -⟩ | ⟨-, t, c, -, -, hcs, -⟩ <;> simp [hcs, putChunk]

theorem isImages_initFlush {s : State} (hd : Header) (hwf : Memory.wf s.cs = true) (hne : s.cs ≠ [])
    (h : IsImages s.out) : IsImages (initFlush hd s).out := by
  unfold initFlush
  split_ifs
  · obtain ⟨e, x, hf⟩ := flush_eq hwf
    rw [hf]
    exact h.append_image ((image_wf_iff _).2 ⟨hne, hwf⟩)
  · exact h

theorem initFlush_pstate (hd : Header) (s : State) : (initFlush hd s).pstate = s.pstate := by
  obtain ⟨e, x, bs, hf⟩ := initFlush_frame hd s
  rw [hf]

/-- A data block that takes no error: the merge writes nothing, the INIT flush one image (R122). -/
theorem outputShape_merged {hd : Header} {s u : State} (hr : s.halted = false) (h : IsImages s.out)
    (hm : merge hd s = .ok u) (hwf : Memory.wf u.cs = true) : OutputShape (initFlush hd u) := by
  have hrun : u.halted = false := (merge_halted hm).trans hr
  have hout : u.out = s.out := by rw [merge_frame hm]
  refine (outputShape_of_not_done ?_).2 (isImages_initFlush hd hwf (merge_cs_ne_nil hm) (hout ▸ h))
  rw [initFlush_pstate]
  exact ((halted_eq_false_iff u).1 hrun).1

/-- A block of the input keeps the shape, class by class. -/
theorem outputShape_exec {thr : Word} {hd : Header} {i : Instr} {s t : State} (hwf : Memory.wf s.cs = true)
    (hr : s.halted = false) (ho : IsImages s.out) (hh : i.header? = some hd) (hw : wellFormed thr i = true)
    (h : exec i s = .next t) : OutputShape t := by
  rcases exec_cases hd i hh s with
    ⟨rfl, -⟩ | ⟨-, he⟩ | ⟨-, -, ⟨x, he⟩ | ⟨-, -, he⟩ | ⟨hc, u, hp, hm, he⟩ | ⟨hc, u, hm, he⟩⟩
  case inl => exact outputShape_execFirst hd hwf ho h
  all_goals obtain rfl := Host.Outcome.next.inj (he.symm.trans h)
  · exact outputShape_finishRun hwf ho
  · exact outputShape_raise x ho
  · exact (outputShape_of_not_done ((halted_eq_false_iff s).1 hr).1).2 ho
  · exact outputShape_merged hr ho hm (merge_wf hm (wellFormed_literal hc hw).2 (fun _ => hp) hwf)
  · obtain ⟨hfill, hd00⟩ := wellFormed_fill hc hw
    exact outputShape_merged hr ho hm (merge_wf hm hd00 (fun hf => by simp [hfill] at hf) hwf)

theorem outputShape_fetchEffect {s t : State} (hwf : Memory.wf s.cs = true) (ho : OutputShape s)
    (h : FetchEffect s t) : OutputShape t := by
  rcases h with ⟨-, rfl⟩ | ⟨hr, -, -, rfl⟩ | ⟨hr, -, -, -, rfl⟩ | ⟨B, r, hr, -, -, rfl⟩
  · exact ho
  · exact outputShape_finishRun hwf (isImages_of_running hr ho)
  · exact outputShape_raise _ (isImages_of_running hr ho)
  · exact outputShape_raise _ (isImages_of_running hr ho)

/-- Settles O26: a flush writes one image, of a store that is canonical and not empty, and only the end
of a run writes the terminator. -/
theorem stepKeepsTheOutputShape : Obligations.StepKeepsTheOutputShape := by
  unfold Obligations.StepKeepsTheOutputShape
  intro s t hi ho h
  obtain ⟨t', ht, hc⟩ := step_answers s
  obtain rfl : t' = t := Host.Outcome.next.inj (ht.symm.trans h)
  rcases hc with hF | ⟨B, r, i, hF, he⟩
  · exact outputShape_fetchEffect hi.store ho hF
  · exact outputShape_exec (s := decoded B s) hi.store hF.running (isImages_of_running hF.running ho)
      hF.header hF.wf he

/-! ### The emitted forms and the flush (R170 to R177) -/

/-- Settles O44: the image is as long as its sizing header says before the reduction. -/
theorem flushWritesTheImageAndEmptiesTheStore : Obligations.FlushWritesTheImageAndEmptiesTheStore := by
  unfold Obligations.FlushWritesTheImageAndEmptiesTheStore
  refine fun s hwf => ⟨flush_eq hwf, ?_⟩
  rw [length_imageBytes (im := ⟨s.is, s.cs⟩) hwf, imageSize, BitVec.toNat_ofNat]

@[simp] theorem outWrite_nil (s : State) : outWrite [] s = s := by simp [outWrite]

/-- A canonical chunk's buffer is written whole, and a Fill chunk has none (R176). -/
theorem emitChunk_of_wf {c : Chunk} (hc : c.wf = true) (s : State) :
    emitChunk c s = outWrite (c.data.getD []) (emitHeader (chunkHeader s.is c) s) := by
  obtain ⟨-, ⟨hf, hnone⟩ | ⟨hf, d, hdata, hlen⟩⟩ := (chunk_wf_iff c).1 hc
  · simp [emitChunk, hf, hnone]
  · have hread : bufRead c 0 c.length.toNat = c.data.getD [] := by
      simp [bufRead, Chunk.buf, hdata, ← hlen]
    rw [emitChunk, hf, hread]
    rfl

/-- Settles O43: each form is one `ENCODE` of the selected fields, and a chunk's buffer follows. -/
theorem emittedFormsSelectTheirFields : Obligations.EmittedFormsSelectTheirFields := by
  unfold Obligations.EmittedFormsSelectTheirFields
  refine ⟨fun s => ?_, fun s c hc => ?_, fun s => ?_⟩
  · obtain ⟨B, hemit, hfields, -, hvalid⟩ := encodeWritesSealedHeader (sizingHeader s.is (imageSize s.cs)) s
    exact ⟨B, hvalid, hfields, congrArg Host.Outcome.next hemit⟩
  · obtain ⟨B, hemit, hfields, -, hvalid⟩ := encodeWritesSealedHeader (chunkHeader s.is c) s
    refine ⟨B, hvalid, hfields, ?_⟩
    rw [exec, execEmitChunk, emitChunk_of_wf hc, hemit, outWrite]
  · obtain ⟨B, hemit, hfields, -, hvalid⟩ := encodeWritesSealedHeader (termHeader s.is) s
    exact ⟨B, hvalid, hfields, congrArg Host.Outcome.next hemit⟩

/-! ### Reading what an engine wrote (R181) -/

/-- A stream of whole blocks with valid headers, each followed by the payload of its class, which does
not depend on the threshold: `FILL.S` and `FILL.L` have none alike. -/
inductive WholeBlocks : List Byte → Prop
  | nil : WholeBlocks []
  | cons {hd : Header} {payload bs : List Byte}
      (hpay : ∀ thr, (classify thr hd).payloadLength = payload.length) (hbs : WholeBlocks bs) :
      WholeBlocks ((encodeHeader hd).toList ++ (payload ++ bs))

/-- A block with none of the priority bits is a data block, of which only a literal one has a payload
(R66, R76). -/
theorem payloadLength_classify_of_data (thr : Word) {hd : Header} (h : hd.flags &&& 0xD00 = 0) :
    (classify thr hd).payloadLength = if hd.flags &&& 0x010 = 0 then hd.count.toNat else 0 := by
  obtain ⟨h1, h2, h3⟩ := (flags_D00 hd.flags).1 h
  rcases classify_cases thr hd with ⟨-, h1'⟩ | ⟨-, -, h2'⟩ | ⟨-, -, -, h3'⟩ | ⟨-, -, -,
    ⟨he, hf⟩ | ⟨he, hf, -⟩ | ⟨he, hf, -⟩ | ⟨-, -, ⟨he, hf, -⟩ | ⟨he, hf, -⟩ | ⟨he, hf, -⟩ | ⟨he, hf, -⟩⟩⟩
  · exact absurd h1 h1'
  · exact absurd h2 h2'
  · exact absurd h3 h3'
  · rw [he, hf]; rfl
  · rw [he, hf]; rfl
  · rw [he, hf]; rfl
  · rw [he, if_pos hf]; rfl
  · rw [he, if_pos hf]; rfl
  · rw [he, if_neg hf]; rfl
  · rw [he, if_neg hf]; rfl

theorem WholeBlocks.chunk {bs : List Byte} (h : WholeBlocks bs) (st : ImageSettings) {c : Chunk}
    (hc : c.wf = true) : WholeBlocks (encodeEmitted st 0 (.emitChunk c) ++ bs) := by
  obtain ⟨hflags, hbuf⟩ := (chunk_wf_iff c).1 hc
  rw [encodeEmitted, List.append_assoc]
  refine .cons (fun thr => ?_) h
  rw [payloadLength_classify_of_data thr hflags]
  rcases hbuf with ⟨hf, hnone⟩ | ⟨hf, d, hdata, hlen⟩
  · rw [hnone]
    exact if_neg ((isFill_eq_true_iff c).1 hf)
  · rw [hdata]
    exact (if_pos ((isFill_eq_false_iff c).1 hf)).trans hlen.symm

/-- A sizing header reads as `FIRST` (R181). -/
theorem classify_sizingHeader (thr : Word) (st : ImageSettings) (total : Word) :
    classify thr (sizingHeader st total) = .first (sizingHeader st total) :=
  classify_of_wellFormed rfl (by simp [wellFormed, sizingHeader])

/-- A terminator reads as `FINAL` (R181). -/
theorem classify_termHeader (thr : Word) (st : ImageSettings) :
    classify thr (termHeader st) = .final (termHeader st) :=
  classify_of_wellFormed rfl (by simp [wellFormed, termHeader])

theorem WholeBlocks.sizing {bs : List Byte} (h : WholeBlocks bs) (st : ImageSettings) (total : Word) :
    WholeBlocks (encodeEmitted st total .emitSizing ++ bs) :=
  .cons (payload := []) (fun thr => by rw [classify_sizingHeader]; rfl) h

theorem wholeBlocks_termBytes (st : ImageSettings) : WholeBlocks (termBytes st) :=
  .cons (payload := []) (fun thr => by rw [classify_termHeader]; rfl) .nil

theorem WholeBlocks.chunks {bs : List Byte} (h : WholeBlocks bs) (st : ImageSettings) {cs : List Chunk}
    (hcs : Memory.wf cs = true) : WholeBlocks (chunkBytes st cs ++ bs) := by
  induction cs with
  | nil => exact h
  | cons c cs ih =>
    obtain ⟨hc, hcs⟩ := (memory_wf_cons c cs).1 hcs
    rw [chunkBytes, List.flatMap_cons, List.append_assoc]
    exact (ih hcs).chunk st hc

/-- What an engine writes in a successful run is a stream of whole blocks (R180, R181). -/
theorem wholeBlocks_output {ims : List Image} (hims : ∀ im ∈ ims, im.wf = true) (st : ImageSettings) :
    WholeBlocks (ims.flatMap Image.bytes ++ termBytes st) := by
  induction ims with
  | nil => exact wholeBlocks_termBytes st
  | cons im ims ih =>
    obtain ⟨him, hims⟩ := List.forall_mem_cons.1 hims
    rw [List.flatMap_cons, Image.bytes, List.append_assoc, List.append_assoc]
    exact ((ih hims).chunks im.is ((image_wf_iff im).1 him).2).sizing im.is (imageSize im.cs)

/-- A Fill block takes no error but `CapacityError` (R157). -/
theorem settle_fillBlock_err {hd : Header} {s t : State} (h : settle s (fillBlock hd s) = .next t) :
    t.err = s.err ∨ t.err = .capacityError := by
  cases hm : merge hd s with
  | error x =>
    obtain rfl := merge_error hm
    rw [fillBlock, hm] at h
    obtain rfl := Host.Outcome.next.inj h
    exact .inr rfl
  | ok u =>
    rw [settle_fillBlock hm] at h
    obtain rfl := Host.Outcome.next.inj h
    obtain ⟨e, x, bs, hf⟩ := initFlush_frame hd u
    exact .inl (by rw [hf, merge_frame hm])

/-- A literal block whose payload is there does what a Fill block does (R113, R117). -/
theorem literalBlock_of_present {hd : Header} {s : State} (hp : PayloadPresent hd s) :
    literalBlock hd s = fillBlock hd s := requirePayload_of_present hp _

/-- A block whose payload is there takes no error but `CapacityError` (R191, R192). -/
theorem exec_err {hd : Header} {i : Instr} {s t : State} (hh : i.header? = some hd)
    (hp : i.payloadLength ≤ s.inp.length - s.ipos) (h : exec i s = .next t) :
    t.err = s.err ∨ t.err = .capacityError := by
  cases i <;> simp only [Instr.header?, Option.some.injEq, reduceCtorEq] at hh <;> subst hh
  case first hd =>
    rw [exec_first] at h
    obtain rfl := Host.Outcome.next.inj h
    obtain ⟨e, x, bs, hf⟩ := flushIfAny_frame s
    exact .inl (by rw [hf])
  case final hd =>
    obtain rfl : finishRun s = t := Host.Outcome.next.inj h
    obtain ⟨e, x, bs, hf⟩ := finishRun_frame s
    exact .inl (by rw [hf])
  case ignore hd =>
    rw [exec, execIgnore, requirePayload_of_present hp] at h
    obtain rfl := Host.Outcome.next.inj h
    exact .inl rfl
  case data hd | xdata hd | xdataInit hd =>
    have he : settle s (literalBlock hd s) = .next t := h
    rw [literalBlock_of_present hp] at he
    exact settle_fillBlock_err he
  case fillS hd | fillL hd | xfill hd | xfillInit hd => exact settle_fillBlock_err h

/-- What holds of an engine that reads whole blocks, at every step boundary. -/
structure ReadsCleanly (s : State) : Prop where
  checksum   : s.err ≠ .checksumError
  truncation : s.err ≠ .truncationError
  input      : s.halted = false → WholeBlocks (unread s)

theorem ReadsCleanly.of_err {s t : State} (hs : ReadsCleanly s) (he : t.err = s.err ∨ t.err = .capacityError)
    (hi : t.halted = false → WholeBlocks (unread t)) : ReadsCleanly t := by
  rcases he with he | he
  · exact ⟨he ▸ hs.checksum, he ▸ hs.truncation, hi⟩
  · exact ⟨by simp [he], by simp [he], hi⟩

/-- The end of the input is `EOS`, which halts the engine (R111). -/
theorem ReadsCleanly.step_of_empty {s t : State} (hs : ReadsCleanly s) (hr : s.halted = false)
    (hu : unread s = []) (h : step s = .next t) : ReadsCleanly t := by
  rw [step_of_decode (i := .eos) hr (by rw [hu]; rfl), latchHeader_of_empty hu] at h
  obtain rfl : finishRun s = t := Host.Outcome.next.inj h
  obtain ⟨e, x, bs, hf⟩ := finishRun_frame s
  refine hs.of_err (.inl (by rw [hf])) fun hrun => ?_
  rw [hf] at hrun
  cases hrun

/-- A whole block is read to its end, or the engine halts. -/
theorem ReadsCleanly.step_of_block {s t : State} (hs : ReadsCleanly s) (hr : s.halted = false) {hd : Header}
    {payload bs : List Byte} (hu : unread s = (encodeHeader hd).toList ++ (payload ++ bs))
    (hpay : ∀ thr, (classify thr hd).payloadLength = payload.length) (hbs : WholeBlocks bs)
    (h : step s = .next t) : ReadsCleanly t := by
  have hdec : decode s.fillThreshold (unread s) = .ok (classify s.fillThreshold hd) := by
    rw [hu, decode_encodeHeader_append]
  have hrest : s.inp.drop (s.ipos + 16) = payload ++ bs := by
    rw [← List.drop_drop, ← unread_def, hu, Bytes16.drop_toList_append]
  have hexec : exec (classify s.fillThreshold hd) (decoded (encodeHeader hd) s) = .next t := by
    rw [← h, step_of_decode hr hdec, latchHeader_of_valid hu (xor16_encodeHeader hd)]
  have havail : (classify s.fillThreshold hd).payloadLength ≤ s.inp.length - (s.ipos + 16) := by
    rw [← List.length_drop, hrest, hpay, List.length_append]
    exact Nat.le_add_right _ _
  refine hs.of_err (exec_err (s := decoded (encodeHeader hd) s) (classify_header _ hd) havail hexec)
    fun hrun => ?_
  have hipos := step_ipos h hr hdec ((halted_eq_false_iff t).1 hrun).2
  rw [if_neg (classify_ne_eos _ hd), hpay, ← Nat.add_assoc] at hipos
  obtain ⟨⟨hinp, -, -, -, -⟩, -⟩ := step_keeps h
  rwa [unread_def, hinp, hipos, ← List.drop_drop, hrest, List.drop_left]

theorem ReadsCleanly.step {s t : State} (hs : ReadsCleanly s) (h : step s = .next t) : ReadsCleanly t := by
  cases hr : s.halted
  · generalize hu : unread s = input
    have hin := hs.input hr
    rw [hu] at hin
    cases hin with
    | nil => exact hs.step_of_empty hr hu h
    | cons hpay hbs => exact hs.step_of_block hr hu hpay hbs h
  · obtain rfl := step_of_halted h hr
    exact hs

/-- What every step keeps, every run keeps. -/
theorem core_run_keeps {P : State → Prop} (hstep : ∀ s t, P s → step s = .next t → P t) {s t : State}
    {k : Nat} (hs : P s) (h : core.run k s = .next t) : P t := by
  induction k generalizing s with
  | zero =>
    obtain rfl := Host.Outcome.next.inj h
    exact hs
  | succ k ih =>
    obtain ⟨u, hu, -⟩ := step_answers s
    rw [core_run_succ hu] at h
    exact ih (hstep s u hs hu) h

/-- Settles O27: own output is a stream of whole blocks, and every step over one stays at a boundary of
a block. -/
theorem ownOutputReadsWithoutChecksumOrTruncationError :
    Obligations.OwnOutputReadsWithoutChecksumOrTruncationError := by
  unfold Obligations.OwnOutputReadsWithoutChecksumOrTruncationError
  intro s ims st hims hr herr hinp k t h
  have hstart : ReadsCleanly s :=
    ⟨by simp [herr], by simp [herr], fun _ => by rw [unread_def, hinp]; exact wholeBlocks_output hims st⟩
  have hend := core_run_keeps (fun _ _ => ReadsCleanly.step) hstart h
  exact ⟨hend.checksum, hend.truncation⟩

end Sys2Proof.Machine

namespace Sys2Proof.Machine

/-! ### The fatal errors of the input (R190, R191) -/

/-- Settles O4: the test comes before the class, and taking the error changes `ERR` and `PSTATE` only. -/
theorem badHeaderTakesChecksumError : Obligations.BadHeaderTakesChecksumError := by
  unfold Obligations.BadHeaderTakesChecksumError
  exact ⟨rfl, fun s B rest hrun hinp hx => step_of_badHeader hrun hinp hx⟩

/-- A short header ends the step of a running engine in `TruncationError`, unread (R191 (a)). -/
theorem step_of_shortHeader {s : State} (hrun : s.halted = false) (hpos : 0 < inAvail s)
    (hshort : inAvail s < 16) : step s = .next (raise .truncation s) := by
  have hlen : (unread s).length = inAvail s := List.length_drop
  rcases step_cases s with ⟨hh, -⟩ | ⟨-, ⟨hu, -⟩ | ⟨-, -, h⟩ | ⟨B, r, hu, -⟩ | ⟨B, r, hu, -⟩⟩
  · simp [hrun] at hh
  · rw [hu, List.length_nil] at hlen; omega
  · exact h
  · rw [hu, List.length_append, Bytes16.length_toList] at hlen; omega
  · rw [hu, List.length_append, Bytes16.length_toList] at hlen; omega

/-- Four classes have a payload, of `byteCount` bytes (R76). -/
theorem payloadClass_of_pos {i : Instr} (h : 0 < i.payloadLength) :
    ∃ hd : Header, i.payloadLength = hd.count.toNat ∧
      i ∈ [Instr.ignore hd, .data hd, .xdata hd, .xdataInit hd] := by
  cases i
  case ignore hd | data hd | xdata hd | xdataInit hd => exact ⟨hd, rfl, by simp⟩
  all_goals exact absurd h (lt_irrefl 0)

/-- Settles O5: (a) is the fetch's; in (b) the class rule starts after the header and begins with the
payload test. -/
theorem truncatedBlockTakesTruncationError : Obligations.TruncatedBlockTakesTruncationError := by
  unfold Obligations.TruncatedBlockTakesTruncationError
  refine ⟨rfl, fun s hrun hpos hshort => ?_, fun s B rest i hrun hinp hdec hmissing => ?_⟩
  · exact step_of_shortHeader hrun (Nat.sub_pos_of_lt hpos) hshort
  · obtain ⟨hd, hlen, hi⟩ := payloadClass_of_pos (Nat.zero_lt_of_lt hmissing)
    have hrest : (decoded B s).inp.length - (decoded B s).ipos = rest.length := by
      change s.inp.length - (s.ipos + 16) = rest.length
      rw [← List.length_drop, ← List.drop_drop, hinp, Bytes16.drop_toList_append]
    have habsent : ¬ PayloadPresent hd (decoded B s) := by rw [PayloadPresent, hrest]; omega
    rw [stepRunsTheDecodedInstruction.2 s B rest i hrun hinp hdec]
    exact missingPayloadHasNoEffect hd (decoded B s) habsent i hi

/-! ### `CapacityError` (R156, R192) -/

/-- A target with a buffer cannot grow past 32 bits of length, nor past the room for bytes (R149, R156). -/
theorem writeTarget_of_noRoom {hd : Header} {t : Target} {s : State} {n : Nat}
    (hbuf : hd.isFill = false ∨ t.chunk.isFill = false) (hn : 0 < n) (he : hd.endAddr = t.chunk.endAddr + n)
    (hno : 2 ^ 32 ≤ t.chunk.length.toNat + n ∨ ¬ RoomForBytes n s) :
    writeTarget hd t s = .error .capacity := by
  rcases writeTarget_cases hd t s with ⟨hc, -⟩ |
    ⟨n', -, he', ⟨-, hw⟩ | ⟨hfit, ⟨hf, hf', -⟩ | ⟨-, ⟨-, hw⟩ | ⟨hroom, -⟩⟩⟩⟩
  · omega
  · exact hw
  · simp [hf, hf'] at hbuf
  · exact hw
  · obtain rfl : n = n' := by omega
    exact hno.elim (fun hlong => absurd hlong (of_decide_eq_false hfit))
      fun hfull => absurd ((dataFull_eq_false hn).1 hroom) hfull

/-- A new record that has a buffer, where there is no room for its bytes or for itself (R147, R156). -/
theorem merge_new_of_noRoom {hd : Header} {s : State} (hnew : NeedsNew s.fillThreshold hd s.cs)
    (hbuf : hd.isFill = false ∨ (newChunk s.fillThreshold hd).isFill = false) (hpos : 0 < hd.count.toNat)
    (hno : ¬ RoomForBytes hd.count.toNat s) : merge hd s = .error .capacity := by
  by_cases hroom : RoomForChunk s
  · rw [merge_of_needsNew hnew hroom]
    exact writeTarget_of_noRoom hbuf hpos rfl (.inr hno)
  · exact merge_of_noRoom hnew hroom

/-- A first match that the block would make too long, or that has no room for the bytes (R149, R156). -/
theorem merge_match_of_noRoom {hd : Header} {s : State} {pre post : List Chunk} {c : Chunk} {n : Nat}
    (hmay : MayMerge s.fillThreshold hd) (hcs : s.cs = pre ++ c :: post) (hmatch : FirstMatch hd pre c)
    (hn : 0 < n) (he : hd.endAddr = c.endAddr + n)
    (hno : 2 ^ 32 ≤ c.length.toNat + n ∨ ¬ RoomForBytes n s) : merge hd s = .error .capacity := by
  obtain ⟨hlit, -⟩ := hmatch.2
  rw [merge_of_firstMatch hmay hcs hmatch]
  exact writeTarget_of_noRoom (.inr ((isFill_eq_false_iff c).2 hlit)) hn he hno

theorem not_roomForBytes {s : State} {n m : Nat} (hn : 0 < n) (hm : s.maxDataBytes = some m)
    (hlt : m < dataBytes s.cs + n) : ¬ RoomForBytes n s :=
  fun hroom => absurd (hroom hn m hm) (Nat.not_le_of_lt hlt)

/-- A data block whose payload is there takes the error of its merge, and nothing else changes (R196). -/
theorem exec_of_merge_error {hd : Header} {s : State} {i : Instr} {x : FatalError}
    (hi : i ∈ [Instr.data hd, .fillS hd, .fillL hd, .xdata hd, .xfill hd, .xdataInit hd, .xfillInit hd])
    (hp : i.payloadLength ≤ s.inp.length - s.ipos) (hm : merge hd s = .error x) :
    exec i s = .next (raise x s) := by
  have hfill : settle s (fillBlock hd s) = .next (raise x s) := by rw [fillBlock, hm]; rfl
  have hlit : PayloadPresent hd s → settle s (literalBlock hd s) = .next (raise x s) := fun hp => by
    rw [literalBlock_of_present hp, hfill]
  simp only [List.mem_cons, List.not_mem_nil, or_false] at hi
  rcases hi with rfl | rfl | rfl | rfl | rfl | rfl | rfl
  · exact hlit hp
  · exact hfill
  · exact hfill
  · exact hlit hp
  · exact hfill
  · exact hlit hp
  · exact hfill

/-- The classes that fill a buffer: their source is literal, or their new record is (R141, R147). -/
theorem buffered_of_wellFormed {thr : Word} {hd : Header} {i : Instr}
    (hi : i ∈ [Instr.data hd, .fillS hd, .xdata hd, .xdataInit hd]) (hw : wellFormed thr i = true) :
    hd.isFill = false ∨ (newChunk thr hd).isFill = false := by
  simp only [List.mem_cons, List.not_mem_nil, or_false] at hi
  rcases hi with rfl | rfl | rfl | rfl
  · exact .inl (isFill_of_data hw)
  · obtain ⟨-, hf, hle⟩ := fillS_mayMerge hw
    exact .inr (by simp [newChunk_of_small hf hle, Chunk.isFill])
  · exact .inl (wellFormed_literal (by simp) hw).1
  · exact .inl (wellFormed_literal (by simp) hw).1

/-- The classes that take part in the scan (R143, R144). -/
theorem mayMerge_of_wellFormed {thr : Word} {hd : Header} {i : Instr}
    (hi : i ∈ [Instr.data hd, .fillS hd]) (hw : wellFormed thr i = true) : MayMerge thr hd := by
  simp only [List.mem_cons, List.not_mem_nil, or_false] at hi
  rcases hi with rfl | rfl
  · exact (data_mayMerge hw).1
  · exact (fillS_mayMerge hw).1

/-- Settles O42: the merge takes the error where it needs a record, where its new record has a buffer, or
where its match grows; the block then changes nothing else. -/
theorem mergeWithoutRoomTakesCapacityError : Obligations.MergeWithoutRoomTakesCapacityError := by
  unfold Obligations.MergeWithoutRoomTakesCapacityError
  refine ⟨rfl, fun hd s i n hi _ hp hnew hmax hfull => ⟨s.cs, ?_⟩,
    fun hd s i m hi hw hp hnew hpos hmax hlt => ⟨s.cs, ?_⟩,
    fun hd s i pre post c hi hw hp hcs hmatch hpast hno => ⟨s.cs, ?_⟩⟩
  · have hroom : ¬ RoomForChunk s := fun h => absurd (h n hmax) (Nat.not_lt_of_le hfull)
    exact exec_of_merge_error hi hp (merge_of_noRoom hnew hroom)
  · have hm := merge_new_of_noRoom hnew (buffered_of_wellFormed hi hw) hpos (not_roomForBytes hpos hmax hlt)
    exact exec_of_merge_error (by simp only [List.mem_cons] at hi ⊢; tauto) hp hm
  · have hn : 0 < hd.endAddr - c.endAddr := Nat.sub_pos_of_lt hpast
    have hend : hd.endAddr = c.endAddr + (hd.endAddr - c.endAddr) := (Nat.add_sub_of_le hpast.le).symm
    have hm : merge hd s = .error .capacity := by
      refine merge_match_of_noRoom (mayMerge_of_wellFormed hi hw) hcs hmatch hn hend (hno.imp (fun hlong => ?_) ?_)
      · simp only [Header.endAddr, Chunk.endAddr]; omega
      · rintro ⟨m, hmax, hlt⟩
        exact not_roomForBytes hn hmax hlt
    exact exec_of_merge_error (by simp only [List.mem_cons] at hi ⊢; tauto) hp hm

end Sys2Proof.Machine

namespace Sys2Proof

/-! ### Written-out words (`30_encoding.md` section 9) -/

/-- The bytes of a well-formed input instruction read as it; they may end the input, so `EOS` is
included. -/
theorem decode_of_encode_eq {thr : Word} {i : Instr} {bs : List Byte} (hw : wellFormed thr i = true)
    (hi : i.isInput = true) (he : encode i = bs) : decode thr bs = .ok i := by
  have h := decodeOfEncodeIsTheInstruction thr i [] hw hi (fun _ => rfl)
  rwa [List.append_nil, he] at h

/-- Settles O11: each word is the encoding of the well-formed instruction it stands for, so it reads
as that instruction. -/
theorem workedEncodingsDecode : Obligations.WorkedEncodingsDecode := by
  unfold Obligations.WorkedEncodingsDecode
  refine ⟨?first, ?data, ?fillS, ?xdataInit, ?final⟩ <;>
    exact decode_of_encode_eq (by decide) rfl (by decide)

end Sys2Proof
